-- ==== Sys2Proof/Word.lean ====
section
/-! DEFINITION. The word types of CONV3 (00_scope.md R8, R9). -/

namespace Sys2Proof

/-- A 32-bit register or command word, or a 32-bit system byte address (R8). -/
abbrev Word := BitVec 32

/-- One byte of system memory, or one channel value (R52). -/
abbrev Byte := BitVec 8

/-- A 16-bit configuration field: WIDTH, HEIGHT, ITER, DIV (R33, R34, R35, R38). -/
abbrev Half := BitVec 16

/-- A 64-bit count: CYCLE and OPCYC (R40, R43). -/
abbrev Count := BitVec 64

/-- An 8-bit two's-complement kernel weight (R39). -/
abbrev Weight := BitVec 8

/-- K0..K8, row-major, position `k = 3*i + j` (R39). -/
abbrev Kernel := Vector Weight 9

end Sys2Proof
end

