-- ==== Sys2Proof/Config.lean ====
section
/-! DEFINITION. The configuration, a parameter of the step relation and not state (00_scope.md R6): the parameters R8
marks OPEN and `mem_ok`. With it the free values: the constants without a body that stand for everything the spec leaves
unspecified. -/

namespace Sys2Proof

/-- An interval of system byte addresses, `[base, base + size)`. -/
structure Region where
  base : Nat
  size : Nat
  deriving DecidableEq, Repr

/-- The parameters R8 leaves OPEN. Every operation that depends on one takes the platform as an argument, and so does
the step relation, `stepOn` (R6). A finite list of regions can say every predicate on 32-bit addresses, so `backed` is
`mem_ok` (R73) without loss. Log 2. -/
structure Platform where
  /-- REG_BASE: the bus address of the register block (R17). -/
  regBase : Word
  /-- MAX_PIXELS: the capacity of each planar buffer (R24). -/
  maxPixels : Word
  /-- F_CLK, in Hz: used only by the HOST's own arithmetic (R43). DESIGN CHOICE, unsafe: a whole number of Hz, where R8
  says only a frequency in Hz (log 2). -/
  fClk : Nat
  /-- COHERENT: whether engine accesses are coherent with HOST caches (R72). -/
  coherent : Bool
  /-- The addresses for which `mem_ok` holds (R73). -/
  backed : List Region
  /-- The addresses that are not ordinary memory: their reads have side effects or their bytes change on their own
  (R62, 93 U10). Log 7. -/
  notOrdinary : List Region
  deriving DecidableEq, Repr

/-- Any REG_BASE, before its alignment: its upper 24 bits. -/
opaque Config.regBlock : BitVec 24

/-- Any MAX_PIXELS, before R8's lower bound of 9. -/
opaque Config.pixelCapacity : Word

/-- Any F_CLK in whole Hz, less one (log 2). -/
opaque Config.clockRate : Nat

/-- Any COHERENT. -/
opaque Config.coherent : Bool

/-- Any `mem_ok`. -/
opaque Config.backed : List Region

/-- Any set of addresses that are not ordinary memory. -/
opaque Config.notOrdinary : List Region

/-- The platform of `step` and `exec`, which take none: every parameter free within the bounds R8 states (REG_BASE is
256-byte aligned, MAX_PIXELS is at least 9), and F_CLK at least 1 Hz, which is the model's choice (PRESUMED, log 2). -/
def Config.platform : Platform :=
  { regBase := Config.regBlock ++ 0#8
    maxPixels := if 9 ≤ Config.pixelCapacity.toNat then Config.pixelCapacity else 9#32
    fClk := Config.clockRate + 1
    coherent := Config.coherent
    backed := Config.backed
    notOrdinary := Config.notOrdinary }

/-- Free value: the byte the `n`-th draw gives wherever the spec says a byte is unspecified (R68, R69, R146, R160,
93 U6 to U11). Log 4. -/
opaque Config.drawByte : Nat → Byte

/-- Free value: how many cycles of `clk` pass before the `n`-th step (R40, R185: no time is modelled). Log 5. -/
opaque Config.drawCycles : Nat → Count

/-- Free value: byte `i` of output plane `c` before the first pass (R47: unspecified). Log 10. -/
opaque Config.stalePlane : Nat → Nat → Byte

end Sys2Proof
end

