-- ==== Sys2Proof/Syntax.lean ====
section
/-! DEFINITION. The command set: one constructor per row of the opcode map (30_encoding.md R77). -/

namespace Sys2Proof

/-- A CONV3 command (30_encoding.md R77). Its other operands are not in the word but in the configuration registers
(R76). -/
inductive Instr where
  /-- NOP, OPCODE 0x00 (43_control.md R145). -/
  | nop
  /-- LOAD_PRESET, OPCODE 0x01; `id` is ARG, an unsigned 8-bit number (40_filter_table.md R95). -/
  | loadPreset (id : Nat)
  /-- RUN_DIRECT, OPCODE 0x02 (41_direct_convolve.md R97). -/
  | runDirect
  /-- RUN_LUT, OPCODE 0x03 (42_lut_convolve.md R106). -/
  | runLut
  /-- RUN_COPY, OPCODE 0x04 (42_lut_convolve.md R115). -/
  | runCopy
  /-- SOFT_RESET, OPCODE 0x05 (43_control.md R146). -/
  | softReset
  deriving DecidableEq, Repr

end Sys2Proof
end

