-- ==== Sys2Proof/WellFormed.lean ====
section
/-! DEFINITION. Which commands a command word can hold, and which platforms are well formed. -/

namespace Sys2Proof

/-- A command is well formed when its operand fits its field: ARG is 8 bits (30_encoding.md R75, R76). The ids 3..255
are well formed and raise UNKNOWN_FILTER when executed (R79). -/
def Instr.wf : Instr → Bool
  | .nop => true
  | .loadPreset id => decide (id < 256)
  | .runDirect => true
  | .runLut => true
  | .runCopy => true
  | .softReset => true

/-- REG_BASE is 256-byte aligned (R8). -/
def Platform.regBaseAligned (p : Platform) : Bool := p.regBase.toNat % 256 == 0

/-- MAX_PIXELS is at least 9 (R8, R24). Its upper bound 2^32-1 is its width. -/
def Platform.capacityLegal (p : Platform) : Bool := decide (9 ≤ p.maxPixels.toNat)

/-- F_CLK is a frequency, so it is not 0. PRESUMED, unsafe: R8 states no such bound (log 2). -/
def Platform.clockRuns (p : Platform) : Bool := decide (0 < p.fClk)

/-- The well-formed platforms: R8's bounds on REG_BASE and MAX_PIXELS, and log 2's on F_CLK. -/
def Platform.wf (p : Platform) : Bool := p.regBaseAligned && p.capacityLegal && p.clockRuns

end Sys2Proof
end

