-- ==== Sys2Proof/Decode.lean ====
section
/-! DEFINITION. Decoding a command word, total over all 2^32 words (30_encoding.md R75 to R80), and the encoder, from
the same opcode map. -/

namespace Sys2Proof

/-- OPCODE, bits [7:0] (R75). -/
def opcodeField (w : Word) : Nat := (w.extractLsb' 0 8).toNat

/-- ARG, bits [15:8], as an unsigned 8-bit number (R75, R76). -/
def argField (w : Word) : Nat := (w.extractLsb' 8 8).toNat

/-- RSVD, bits [31:16] (R75). -/
def rsvdField (w : Word) : Nat := (w.extractLsb' 16 16).toNat

/-- One row of the opcode map (R77): a word is this command exactly when `w &&& mask = pattern`. -/
structure OpcodeRow where
  mnemonic : String
  pattern : Word
  mask : Word
  build : Nat → Instr

/-- The opcode map, in the table's order (R77). -/
def opcodeMap : List OpcodeRow :=
  [ ⟨"NOP", 0x00000000#32, 0xFFFFFFFF#32, fun _ => .nop⟩,
    ⟨"LOAD_PRESET", 0x00000001#32, 0xFFFF00FF#32, fun arg => .loadPreset arg⟩,
    ⟨"RUN_DIRECT", 0x00000002#32, 0xFFFFFFFF#32, fun _ => .runDirect⟩,
    ⟨"RUN_LUT", 0x00000003#32, 0xFFFFFFFF#32, fun _ => .runLut⟩,
    ⟨"RUN_COPY", 0x00000004#32, 0xFFFFFFFF#32, fun _ => .runCopy⟩,
    ⟨"SOFT_RESET", 0x00000005#32, 0xFFFFFFFF#32, fun _ => .softReset⟩ ]

/-- Whether the word is the row's command (R77). -/
def OpcodeRow.covers (r : OpcodeRow) (w : Word) : Bool := w &&& r.mask == r.pattern

/-- Why a word is ILLEGAL: the three kinds of R79. A word of several kinds is named by the first; the name has no
effect on the machine (log 16). -/
inductive Illegal where
  /-- OPCODE in 0x06..0xFF. -/
  | opcode
  /-- RSVD is not 0. -/
  | rsvd
  /-- ARG is not 0 and OPCODE is not 0x01. -/
  | arg
  deriving DecidableEq, Repr

/-- The kind of an ILLEGAL word (R79). -/
def illegalKind (w : Word) : Illegal :=
  if 6 ≤ opcodeField w then .opcode
  else if rsvdField w ≠ 0 then .rsvd
  else .arg

/-- R78: the command of the single row that covers the word, or ILLEGAL by name. -/
def decode (w : Word) : Except Illegal Instr :=
  match opcodeMap.find? (fun r => r.covers w) with
  | some r => .ok (r.build (argField w))
  | none => .error (illegalKind w)

/-- The word with the given OPCODE and ARG and with RSVD = 0 (R75). -/
def commandWord (opcode arg : Nat) : Word := 0#16 ++ BitVec.ofNat 8 arg ++ BitVec.ofNat 8 opcode

/-- The word of a command (R77, R81). -/
def encode : Instr → Word
  | .nop => commandWord 0x00 0
  | .loadPreset id => commandWord 0x01 id
  | .runDirect => commandWord 0x02 0
  | .runLut => commandWord 0x03 0
  | .runCopy => commandWord 0x04 0
  | .softReset => commandWord 0x05 0

/-- The command the decoder reads from a word given by its low `nbits` bits, the bits above being 0. A command has one
word and no byte order (20_memory.md R59). -/
def decodeTableWord (nbits w : Nat) : Option Instr :=
  match decode (BitVec.ofNat 32 (w % 2 ^ nbits)) with
  | .ok i => some i
  | .error _ => none

end Sys2Proof
end

