-- ==== Sys2Proof/Machine/State.lean ====
section
/-! DEFINITION. The state of CONV3 as plain data (10_state.md R14), the moves of the outside world that stand in it, and
the state right after reset (70_reset_and_hazards.md R176). -/

namespace Sys2Proof.Machine

/-- The error codes of 60_exceptions.md R153. Codes 0xA..0xF are reserved and never produced: they have no
constructor. -/
inductive ErrCode where
  | none
  | badCommand
  | unknownFilter
  | badDims
  | divZero
  | badIter
  | addrRange
  | overlap
  | tooLarge
  | busError
  deriving DecidableEq, Repr

/-- STATUS but for BUSY, which is the presence of the job (10_state.md R26 to R30; log 11). -/
structure Status where
  done : Bool
  err : Bool
  ovf : Bool
  errcode : ErrCode
  deriving DecidableEq, Repr

/-- IRQ_EN (10_state.md R32). -/
structure IrqEn where
  doneIe : Bool
  errIe : Bool
  ovfIe : Bool
  deriving DecidableEq, Repr

/-- The register block: every register of 10_state.md R19 that stores something a reset or a command changes. ID, CAP
and MAXPIX are constants, CMD stores nothing. -/
structure RegBlock where
  status : Status
  irqEn : IrqEn
  width : Half
  height : Half
  iter : Half
  srcBase : Word
  dstBase : Word
  div : Half
  kernel : Kernel
  opcyc : Count
  deriving DecidableEq, Repr

/-- The register block after either reset (70_reset_and_hazards.md R176). -/
def RegBlock.reset : RegBlock :=
  { status := { done := false, err := false, ovf := false, errcode := .none }
    irqEn := { doneIe := false, errIe := false, ovfIe := false }
    width := 0#16
    height := 0#16
    iter := 1#16
    srcBase := 0#32
    dstBase := 0#32
    div := 0#16
    kernel := #v[0#8, 0#8, 0#8, 0#8, 0#8, 0#8, 0#8, 0#8, 0#8]
    opcyc := 0#64 }

/-- The run commands: the opcode in the job snapshot (10_state.md R44). -/
inductive RunMode where
  | direct
  | lut
  | copy
  deriving DecidableEq, Repr

/-- The job snapshot (10_state.md R44) with the two values that belong to the run in progress (R45). -/
structure Job where
  mode : RunMode
  width : Half
  height : Half
  iter : Half
  srcBase : Word
  dstBase : Word
  div : Half
  kernel : Kernel
  /-- The job start cycle (R45). -/
  startCycle : Count
  /-- The race flag (R45). -/
  race : Bool
  /-- The addresses of the source region the HOST had not written back from its cache at acceptance: the ENGINE may read
  stale bytes there (20_memory.md R72, 60_exceptions.md R173; log 8). The model's own. -/
  unclean : List Nat
  deriving DecidableEq, Repr

/-- System memory: the bytes that differ from what an unlisted address reads as, at strictly rising addresses. -/
abbrev Memory := List Host.Cell

/-- What a HOST register access does: a read, or a write of a value. -/
inductive RegOp where
  | read
  | write (v : Word)
  deriving DecidableEq, Repr

/-- A move of the outside world, or of the ENGINE, in the order in which they come (log 1). -/
inductive Event where
  /-- The ENGINE's turn: the completion step where it is enabled (30_encoding.md R92). -/
  | engine
  /-- A HOST access at the register port, `bits` wide, at an 8-bit offset (60_exceptions.md R169). -/
  | reg (bits : Nat) (offset : BitVec 8) (op : RegOp)
  /-- A HOST register access by its bus address (10_state.md R17, 30_encoding.md R81). -/
  | bus (bits : Nat) (addr : Word) (op : RegOp)
  /-- A HOST read of one byte of system memory (00_scope.md R7). -/
  | memRead (a : Word)
  /-- A HOST write of one byte of system memory (00_scope.md R7). -/
  | memWrite (a : Word) (b : Byte)
  /-- The pseudo-operation `wait` (30_encoding.md R82), with the number of polls that find BUSY = 1 before the
  ENGINE's turn comes (log 14). -/
  | wait (polls : Nat)
  /-- The HOST writes back its cached copies of `[base, base + size)` (20_memory.md R72). -/
  | cacheClean (range : Region)
  /-- The HOST invalidates its cached copies of `[base, base + size)` (20_memory.md R72). -/
  | cacheInvalidate (range : Region)
  /-- `rst_n` goes low: power-on reset (70_reset_and_hazards.md R175). -/
  | rstAssert
  /-- `rst_n` goes high (70_reset_and_hazards.md R175). -/
  | rstRelease
  /-- The platform changes `mem_ok`, a parameter of the step relation (60_exceptions.md R173, 93 U24, U25; log 13). -/
  | remap
  /-- `clk` runs at this many Hz (60_exceptions.md R173, 93 U25; log 13). -/
  | clock (hz : Nat)
  deriving DecidableEq, Repr

/-- What the HOST's bus answered to the last move (log 12). The model's own. -/
inductive Response where
  /-- The last move was no HOST access of CONV3 or of memory. -/
  | none
  /-- A write was taken. -/
  | ack
  /-- A register read returned this value. -/
  | word (v : Word)
  /-- A memory read returned this byte. -/
  | byte (b : Byte)
  /-- A bus error response (10_state.md R17, 00_scope.md R11). -/
  | busError
  deriving DecidableEq, Repr

/-- The machine. The configuration is not part of it: it is a parameter of the step relation (00_scope.md R6; log 2). -/
structure State where
  /-- The register block (10_state.md R19). -/
  regs : RegBlock
  /-- CYCLE (10_state.md R40). -/
  cycle : Count
  /-- The CYCLE_HI shadow (10_state.md R48). -/
  cycleHi : Word
  /-- The run in progress; STATUS.BUSY is its presence (10_state.md R26, R44). -/
  job : Option Job
  /-- System memory (10_state.md R14, 20_memory.md R50). -/
  mem : Memory
  /-- `rst_n` is low (70_reset_and_hazards.md R175). -/
  rstLow : Bool
  /-- Where COHERENT is false: addresses the HOST wrote and has not written back from its cache (20_memory.md R72;
  log 8). -/
  dirty : List Nat
  /-- Where COHERENT is false: addresses the ENGINE wrote and the HOST has not invalidated in its cache
  (20_memory.md R72; log 8). -/
  stale : List Nat
  /-- The moves to come, the next one first (log 1). The model's own. -/
  agenda : List Event
  /-- The answer of the HOST's bus to the last move (log 12). The model's own. -/
  resp : Response
  /-- The index of the next free value (log 4). The model's own; no claim may rest on its value. -/
  draws : Nat
  deriving DecidableEq, Repr

/-- The two ways the machine stops: the cases 93 U25 calls stuck, for which the spec says the model has no move (log 13).
No command ends in a fault. -/
inductive Fault where
  /-- Raised by the event `remap`: during a run `mem_ok` is fixed (60_exceptions.md R173, 93 U24, U25), and at any time it
  is a parameter of the step relation, which no step changes (00_scope.md R6; log 13). Safe: the model stops where the spec
  gives no behaviour. -/
  | memOkChanged
  /-- Raised by the event `clock` with a frequency other than F_CLK (60_exceptions.md R173, 93 U25). Safe: the model
  stops where the spec gives no behaviour. -/
  | clockNotFclk
  deriving DecidableEq, Repr

/-- Why an instruction has no meaning. Every command of CONV3 has one, so nothing raises this. -/
inductive Refusal where
  /-- Raised by an arm of `exec` whose command is not modelled yet; no arm of this model does. Safe. -/
  | notModelled (mnemonic : String)
  deriving DecidableEq, Repr

/-- The machine right after power-on reset, `rst_n` high again (70_reset_and_hazards.md R176, R177): the engine is idle
and waits for a CMD write. Memory lists nothing (log 3); the model's own fields are empty (log 15) and `draws` is 0
(log 4). -/
def State.reset : State :=
  { regs := RegBlock.reset
    cycle := 0#64
    cycleHi := 0#32
    job := none
    mem := []
    rstLow := false
    dirty := []
    stale := []
    agenda := []
    resp := .none
    draws := 0 }

/-- STATUS.BUSY: 1 exactly while a run command is accepted and not yet ended (10_state.md R26). -/
abbrev State.busy (s : State) : Bool := s.job.isSome

/-- The outcome of a step of this machine. -/
abbrev Outcome := Host.Outcome State Fault Refusal

end Sys2Proof.Machine
end

