-- ==== Sys2Proof/Machine/Ops.lean ====
section
/-! DEFINITION. The named operations over memory, regions, free values and the life cycle of a command, and the error
mechanism: `raiseError` is how a command fails, `acknowledge` is the HOST's way back from it. -/

namespace Sys2Proof.Machine

/-! ### System memory -/

/-- What a byte of system memory reads as when nothing has written it (log 3). -/
def blankByte : Byte := 0#8

/-- The canonical form from address `lo` on: strictly rising 32-bit addresses, and no entry equal to `blankByte`. -/
def Memory.wfFrom (lo : Nat) : Memory → Bool
  | [] => true
  | (k, v) :: rest => decide (lo ≤ k) && decide (k < 2 ^ 32) && (v != blankByte) && Memory.wfFrom (k + 1) rest

/-- The canonical form of a memory: equal memories are equal lists. -/
def Memory.wf (m : Memory) : Bool := Memory.wfFrom 0 m

/-- `MemRead(a, 1)` of a backed address (00_scope.md R11). -/
def readByte : Memory → Nat → Byte
  | [], _ => blankByte
  | (k, v) :: rest, a => if a = k then v else if a < k then blankByte else readByte rest a

/-- Puts an entry before the others, unless it says what an unlisted address reads as. -/
def consCell (a : Nat) (b : Byte) (m : Memory) : Memory := if b = blankByte then m else (a, b) :: m

/-- `MemWrite(a, 1, b)` of a backed address (00_scope.md R11). -/
def writeByte : Memory → Nat → Byte → Memory
  | [], a, b => consCell a b []
  | (k, v) :: rest, a, b =>
    if a < k then consCell a b ((k, v) :: rest)
    else if a = k then consCell a b rest
    else (k, v) :: writeByte rest a b

/-- Writes byte `f i` at `base + i` for every `i < n` whose address `which` accepts. The order of the engine's writes is
not observable (20_memory.md R74). -/
def fill (m : Memory) (base : Nat) (which : Nat → Bool) (f : Nat → Byte) : Nat → Memory
  | 0 => m
  | n + 1 =>
    if which (base + n) then writeByte (fill m base which f n) (base + n) (f n) else fill m base which f n

/-! ### Regions and the platform -/

/-- Whether the region holds the address. -/
def holds (r : Region) (a : Nat) : Bool := decide (r.base ≤ a) && decide (a < r.base + r.size)

/-- `mem_ok(a)`, a predicate on 32-bit addresses (20_memory.md R73). -/
def memOk (p : Platform) (a : Nat) : Bool := decide (a < 2 ^ 32) && p.backed.any (fun r => holds r a)

/-- Whether the address is ordinary memory (20_memory.md R62). -/
def ordinary (p : Platform) (a : Nat) : Bool := !p.notOrdinary.any (fun r => holds r a)

/-- Whether `test` accepts every address of the region. -/
def allIn (r : Region) (test : Nat → Bool) : Bool := (List.range r.size).all (fun i => test (r.base + i))

/-! ### Image addresses -/

/-- `addr(B, x, y, c) = B + 3*(y*W + x) + c` (20_memory.md R52, 43_control.md R149). -/
def addr (base w x y c : Nat) : Nat := base + 3 * (y * w + x) + c

/-- The size of a `w` by `h` image in bytes (R52). -/
def imageSize (w h : Nat) : Nat := 3 * w * h

/-- `wraps(B)`: the last byte of an image at `base` lies beyond the address space (20_memory.md R55). -/
def wraps (base n : Nat) : Bool := decide (0xFFFFFFFF < base + n - 1)

/-- `overlaps(S, D)` (20_memory.md R56). -/
def overlaps (src dst n : Nat) : Bool := decide (src < dst + n) && decide (dst < src + n)

/-- The job's source region (20_memory.md R53). -/
def Job.source (j : Job) : Region := { base := j.srcBase.toNat, size := imageSize j.width.toNat j.height.toNat }

/-- The job's destination region (20_memory.md R54). -/
def Job.dest (j : Job) : Region := { base := j.dstBase.toNat, size := imageSize j.width.toNat j.height.toNat }

/-! ### Time and free values -/

/-- Time passes before a step: CYCLE counts on by a free number of cycles, and stays 0 while `rst_n` is low
(10_state.md R40, 70_reset_and_hazards.md R175; log 5). -/
def tick (s : State) : State :=
  if s.rstLow then s else { s with cycle := s.cycle + Config.drawCycles s.draws, draws := s.draws + 1 }

/-- Gives every byte of the region that `which` accepts a free value of its own. -/
def scribble (r : Region) (which : Nat → Bool) (s : State) : State :=
  { s with
    mem := fill s.mem r.base which (fun i => Config.drawByte (s.draws + i)) r.size
    draws := s.draws + r.size }

/-- The ENGINE has written the region: where COHERENT is false, the HOST's cached copies of it are stale until the HOST
invalidates them (20_memory.md R72; log 8). DESIGN CHOICE, unsafe: a byte of the region that is dirty in a HOST cache
leaves `dirty`, so the engine's byte stands, whether the HOST writes its copy back later or not. R72 names no clean duty
for the destination, and R45, R72 and R181 do not say what such a write-back does (log 8). -/
def noteEngineWrites (p : Platform) (r : Region) (s : State) : State :=
  if p.coherent then s
  else
    { s with
      stale := List.range' r.base r.size ++ s.stale.filter (fun a => !holds r a)
      dirty := s.dirty.filter (fun a => !holds r a) }

/-- The destination region of a run holds unspecified values, in its backed bytes (60_exceptions.md R160, 43_control.md
R146, 20_memory.md R69). -/
def scribbleDest (p : Platform) (j : Job) (s : State) : State :=
  noteEngineWrites p j.dest (scribble j.dest (memOk p) s)

/-! ### The life cycle of a command -/

/-- Acceptance of a word when idle clears DONE, ERR and ERRCODE, and not OVF (30_encoding.md R87). -/
def acceptCommand (s : State) : State :=
  { s with regs := { s.regs with status := { s.regs.status with done := false, err := false, errcode := .none } } }

/-- A word written while BUSY is dropped: OVF is set and nothing else changes (30_encoding.md R88). -/
def dropCommand (s : State) : State :=
  { s with regs := { s.regs with status := { s.regs.status with ovf := true } } }

/-- The cycle at which a run ends: a run takes at least one cycle, so that OPCYC is at least 1 (10_state.md R43;
log 5). -/
def endCycle (start now : Count) : Count := if now = start then now + 1 else now

/-- The end of a run: BUSY <- 0 and OPCYC <- (CYCLE now) - (job start cycle) (30_encoding.md R89, 60_exceptions.md
R156). Nothing where no run is in progress. -/
def endRun (s : State) : State :=
  match s.job with
  | none => s
  | some j =>
    { s with
      job := none
      cycle := endCycle j.startCycle s.cycle
      regs := { s.regs with opcyc := endCycle j.startCycle s.cycle - j.startCycle } }

/-- `complete()` (30_encoding.md R89). -/
def complete (s : State) : State :=
  endRun { s with regs := { s.regs with status := { s.regs.status with done := true } } }

/-- `raise Error(code)` (60_exceptions.md R156): the whole of the entry is ERR and ERRCODE (R155); at completion it also
ends the run. DONE stays as acceptance left it. -/
def raiseError (code : ErrCode) (s : State) : State :=
  endRun { s with regs := { s.regs with status := { s.regs.status with err := true, errcode := code } } }

/-- A HOST write of `v` to STATUS (10_state.md R31): the way back from an error or an interrupt (60_exceptions.md R157,
R165). -/
def acknowledge (v : Word) (s : State) : State :=
  let st := s.regs.status
  { s with
    regs :=
      { s.regs with
        status :=
          { done := st.done && !v[1]
            err := st.err && !v[2]
            errcode := if v[2] then .none else st.errcode
            ovf := st.ovf && !v[3] } } }

/-- What a command other than SOFT_RESET does with a CMD write (30_encoding.md R85, R87, R88): idle, it is accepted and
`body` is performed; busy, it is dropped. -/
def whenIdle (body : State → State) (s : State) : State :=
  if s.busy then dropCommand s else body (acceptCommand s)

/-! ### Resets -/

/-- A run in progress is aborted: its destination region becomes unspecified and its completion step is withdrawn
(43_control.md R146, 70_reset_and_hazards.md R175). -/
def abortRun (p : Platform) (s : State) : State :=
  match s.job with
  | none => s
  | some j => { scribbleDest p j s with job := none }

/-- The reset values of 43_control.md R147: every register, the CYCLE_HI shadow, no job. CYCLE is not among them. -/
def resetEngine (s : State) : State := { s with regs := RegBlock.reset, cycleHi := 0#32, job := none }

/-- Power-on reset (70_reset_and_hazards.md R175): as SOFT_RESET, and CYCLE <- 0; the engine stays in reset while
`rst_n` is low. -/
def powerOnReset (p : Platform) (s : State) : State := { resetEngine (abortRun p s) with cycle := 0#64, rstLow := true }

end Sys2Proof.Machine
end

