-- ==== Sys2Proof/Machine/Control.lean ====
section
/-! DEFINITION. The control commands NOP and SOFT_RESET (43_control.md R145 to R147). -/

namespace Sys2Proof.Machine

/-- NOP completes (43_control.md R145); written while BUSY it is dropped. -/
def performNop (s : State) : State := whenIdle complete s

/-- NOP on the machine's own platform, which it does not depend on. -/
def execNop (s : State) : Host.Outcome State Fault Refusal := .next (performNop s)

/-- SOFT_RESET, accepted whether BUSY is 0 or 1 (43_control.md R146): a run in progress is aborted, and the reset values
of R147 are applied. CYCLE keeps counting. -/
def performSoftReset (p : Platform) (s : State) : State := resetEngine (abortRun p s)

/-- SOFT_RESET on the machine's own platform (log 2). -/
def execSoftReset (s : State) : Host.Outcome State Fault Refusal := .next (performSoftReset Config.platform s)

end Sys2Proof.Machine
end

