-- ==== Sys2Proof/Machine/Arith.lean ====
section
/-! DEFINITION. The arithmetic primitives of 00_scope.md R10, on mathematical integers. -/

namespace Sys2Proof.Machine

/-- `tdiv(a, b)`, for `b > 0`: the quotient truncated toward zero, `sign(a) * floor(|a| / b)` (R10). -/
def tdiv (a : Int) (b : Nat) : Int := a.sign * ((a.natAbs / b : Nat) : Int)

/-- `asr(a, s) = floor(a / 2^s)` (R10). -/
def asr (a : Int) (s : Nat) : Int := Int.fdiv a (2 ^ s)

/-- `clamp255(a)` as the byte it is (R10). -/
def clamp255 (a : Int) : Byte := if a < 0 then 0#8 else if 255 < a then 255#8 else BitVec.ofInt 8 a

/-- `lo8(a) = a mod 256` as the byte it is (R10). -/
def lo8 (a : Int) : Byte := BitVec.ofInt 8 a

/-- The LUT's fixed-point shift (R8, CAP.SCALE). -/
def lutScale : Nat := 8

/-- A sum over `i` in 0..2 (R99, R110). -/
def sum3 (f : Fin 3 → Int) : Int := f 0 + f 1 + f 2

/-- Kernel position `k = 3*i + j` (R13, R39). -/
def kpos (i j : Fin 3) : Fin 9 := ⟨3 * i.val + j.val, by omega⟩

/-- The weight at position `k`, sign-extended from 8 bits (R39, R76). -/
def weight (kernel : Kernel) (k : Fin 9) : Int := kernel[k].toInt

end Sys2Proof.Machine
end

