-- ==== Sys2Proof/Machine/Run.lean ====
section
/-! DEFINITION. What the three run commands share: validation (60_exceptions.md R158), the job snapshot and acceptance
(30_encoding.md R91). -/

namespace Sys2Proof.Machine

/-- Whether the command divides: DIV = 0 is an error of RUN_DIRECT and RUN_LUT alone (60_exceptions.md R158, check 3). -/
def RunMode.divides : RunMode → Bool
  | .direct => true
  | .lut => true
  | .copy => false

/-- Whether the command has a pass count: ITER = 0 is an error of RUN_LUT alone (R158, check 4). -/
def RunMode.iterates : RunMode → Bool
  | .direct => false
  | .lut => true
  | .copy => false

/-- Whether the command uses the planar buffers: TOO_LARGE is an error of RUN_LUT and RUN_COPY (R158, check 7). -/
def RunMode.planar : RunMode → Bool
  | .direct => false
  | .lut => true
  | .copy => true

/-- The source addresses that are still dirty in a HOST cache, on a platform with COHERENT false (20_memory.md R72;
log 8). -/
def uncleanSource (p : Platform) (s : State) : List Nat :=
  if p.coherent then []
  else
    s.dirty.filter
      (holds { base := s.regs.srcBase.toNat, size := imageSize s.regs.width.toNat s.regs.height.toNat })

/-- The job snapshot of the registers as they stand (10_state.md R44, R45): the race flag is false. With it the model's
own mark of the source bytes whose cache duty was skipped (log 8). -/
def snapshot (p : Platform) (mode : RunMode) (s : State) : Job :=
  { mode := mode
    width := s.regs.width
    height := s.regs.height
    iter := s.regs.iter
    srcBase := s.regs.srcBase
    dstBase := s.regs.dstBase
    div := s.regs.div
    kernel := s.regs.kernel
    startCycle := s.cycle
    race := false
    unclean := uncleanSource p s }

/-- Checks 2 to 7 of 60_exceptions.md R158 in their order: the error, and whether its condition holds of a job of this
configuration. -/
def runChecks (p : Platform) (j : Job) : List (ErrCode × Bool) :=
  let w := j.width.toNat
  let h := j.height.toNat
  let n := imageSize w h
  [ (.badDims, w == 0 || h == 0),
    (.divZero, j.mode.divides && j.div == 0),
    (.badIter, j.mode.iterates && j.iter == 0),
    (.addrRange, wraps j.srcBase.toNat n || wraps j.dstBase.toNat n),
    (.overlap, overlaps j.srcBase.toNat j.dstBase.toNat n),
    (.tooLarge, j.mode.planar && decide (p.maxPixels.toNat < w * h)) ]

/-- The first check that fails, if any (R158, R159). -/
def firstError (p : Platform) (j : Job) : Option ErrCode := ((runChecks p j).find? (fun c => c.2)).map (fun c => c.1)

/-- A run command after acceptance of its word: it raises the first failing check and changes nothing but STATUS, or the
job is the snapshot and BUSY is 1 (30_encoding.md R87, R91). No memory is accessed. -/
def startRun (p : Platform) (mode : RunMode) (s : State) : State :=
  match firstError p (snapshot p mode s) with
  | some e => raiseError e s
  | none => { s with job := some (snapshot p mode s) }

/-- R13: `interior(x, y)`, for a `w` by `h` image. -/
def interior (w h x y : Nat) : Bool := decide (1 ≤ x) && decide (x + 2 ≤ w) && decide (1 ≤ y) && decide (y + 2 ≤ h)

/-- `src(x, y, c)` of the job, as memory holds it (20_memory.md R53). -/
def srcByte (j : Job) (m : Memory) (x y c : Nat) : Byte := readByte m (addr j.srcBase.toNat j.width.toNat x y c)

end Sys2Proof.Machine
end

