-- ==== Sys2Proof/Machine/DirectConvolve.lean ====
section
/-! DEFINITION. RUN_DIRECT (41_direct_convolve.md R97 to R105). -/

namespace Sys2Proof.Machine

/-- The nine-term sum of an interior pixel (R99): position `3*i + j` weights the neighbour `(x + j - 1, y + i - 1)`. -/
def directAcc (job : Job) (m : Memory) (x y c : Nat) : Int :=
  sum3 fun i => sum3 fun j =>
    weight job.kernel (kpos i j) * ((srcByte job m (x + j.val - 1) (y + i.val - 1) c).toNat : Int)

/-- `out(x, y, c)` of F_DIRECT: the clamped quotient in the interior, 0 on the border (R97, R100, R101). -/
def directByte (job : Job) (m : Memory) (x y c : Nat) : Byte :=
  if interior job.width.toNat job.height.toNat x y then clamp255 (tdiv (directAcc job m x y c) job.div.toNat)
  else 0#8

/-- RUN_DIRECT inside the CMD write (R97): validation and acceptance. Its result is written at the completion step,
`resultByte` in Engine.lean. -/
def performRunDirect (p : Platform) (s : State) : State := whenIdle (startRun p .direct) s

/-- RUN_DIRECT on the machine's own platform (log 2). -/
def execRunDirect (s : State) : Host.Outcome State Fault Refusal := .next (performRunDirect Config.platform s)

end Sys2Proof.Machine
end

