-- ==== Sys2Proof/Machine/FilterTable.lean ====
section
/-! DEFINITION. The preset table and LOAD_PRESET (40_filter_table.md R94, R95). -/

namespace Sys2Proof.Machine

/-- One entry of the preset table: weights in row-major order, and the divisor (40_filter_table.md R94). -/
structure Preset where
  kernel : Kernel
  div : Half
  deriving DecidableEq, Repr

/-- gauss, id 0 (R94). -/
def gauss : Preset := { kernel := #v[0#8, 4#8, 0#8, 4#8, 8#8, 4#8, 0#8, 4#8, 0#8], div := 24#16 }

/-- vline, id 1 (R94). -/
def vline : Preset := { kernel := #v[-1#8, 0#8, 1#8, -2#8, 0#8, 2#8, -1#8, 0#8, 1#8], div := 1#16 }

/-- hline, id 2 (R94). -/
def hline : Preset := { kernel := #v[-1#8, -2#8, -1#8, 0#8, 0#8, 0#8, 1#8, 2#8, 1#8], div := 1#16 }

/-- The preset table: exactly three entries, in the order of their ids (R94). -/
def presetTable : List Preset := [gauss, vline, hline]

/-- Copies an entry into K0..K8 and DIV (R95). -/
def loadKernel (p : Preset) (s : State) : State := { s with regs := { s.regs with kernel := p.kernel, div := p.div } }

/-- R95 after acceptance: an id above 2 raises UNKNOWN_FILTER and changes no kernel register. -/
def loadPresetBody (id : Nat) (s : State) : State :=
  match presetTable[id]? with
  | none => raiseError .unknownFilter s
  | some p => complete (loadKernel p s)

/-- LOAD_PRESET (40_filter_table.md R95). -/
def performLoadPreset (id : Nat) (s : State) : State := whenIdle (loadPresetBody id) s

/-- LOAD_PRESET on the machine's own platform, which it does not depend on. -/
def execLoadPreset (id : Nat) (s : State) : Host.Outcome State Fault Refusal := .next (performLoadPreset id s)

end Sys2Proof.Machine
end

