-- ==== Sys2Proof/Machine/LutConvolve.lean ====
section
/-! DEFINITION. RUN_LUT and RUN_COPY (42_lut_convolve.md R106 to R118). The planes and the lookup table are intermediate
values of the completion step (10_state.md R46, R47; log 10). -/

namespace Sys2Proof.Machine

/-- Three planar buffers: byte `i` of plane `c` (10_state.md R47). An intermediate value, not state. -/
abbrev Planes := Nat → Nat → Byte

/-- Step 1, planarize (R107): `IN[c][y*W + x] <- src(x, y, c)`. -/
def planarize (job : Job) (m : Memory) : Planes := fun c i =>
  srcByte job m (i % job.width.toNat) (i / job.width.toNat) c

/-- Step 2, one entry of the lookup table (R108, R109): the product times 2^SCALE, divided toward zero. -/
def lutEntry (job : Job) (k : Fin 9) (v : Byte) : Int :=
  tdiv ((v.toNat : Int) * weight job.kernel k * 2 ^ lutScale) job.div.toNat

/-- Step 3, the sum of nine lookups of an interior pixel (R110). -/
def lutSum (job : Job) (planes : Planes) (c x y : Nat) : Int :=
  sum3 fun i => sum3 fun j =>
    lutEntry job (kpos i j) (planes c ((y + i.val - 1) * job.width.toNat + (x + j.val - 1)))

/-- Step 3, scale, absolute value and byte store (R111). -/
def lutPixel (job : Job) (planes : Planes) (c x y : Nat) : Byte :=
  lo8 ((asr (lutSum job planes c x y) lutScale).natAbs : Int)

/-- One pass of step 3 over every pixel of every plane (R106, R112): it reads `planes` and writes all of OUT. -/
def lutPass (job : Job) (planes : Planes) (_out : Planes) : Planes := fun c i =>
  if interior job.width.toNat job.height.toNat (i % job.width.toNat) (i / job.width.toNat) then
    lutPixel job planes c (i % job.width.toNat) (i / job.width.toNat)
  else 0#8

/-- Step 3 repeated (R113); OUT before the first pass is unspecified (10_state.md R47; log 10). -/
def lutPasses (job : Job) (planes : Planes) : Nat → Planes
  | 0 => Config.stalePlane
  | n + 1 => lutPass job planes (lutPasses job planes n)

/-- Step 4, interleave (R114): `out(x, y, c) <- OUT[c][y*W + x]`. -/
def interleave (job : Job) (out : Planes) (x y c : Nat) : Byte := out c (y * job.width.toNat + x)

/-- `out(x, y, c)` of F_LUT (R106). -/
def lutByte (job : Job) (m : Memory) (x y c : Nat) : Byte :=
  interleave job (lutPasses job (planarize job m) job.iter.toNat) x y c

/-- RUN_COPY's loop over the planes (R115): `OUT[c][i] <- IN[c][i]`. -/
def copyPlanes (planes : Planes) : Planes := fun c i => planes c i

/-- `out(x, y, c)` of F_COPY (R115). -/
def copyByte (job : Job) (m : Memory) (x y c : Nat) : Byte :=
  interleave job (copyPlanes (planarize job m)) x y c

/-- RUN_LUT inside the CMD write (R106): validation and acceptance. Its result is written at the completion step,
`resultByte` in Engine.lean. -/
def performRunLut (p : Platform) (s : State) : State := whenIdle (startRun p .lut) s

/-- RUN_LUT on the machine's own platform (log 2). -/
def execRunLut (s : State) : Host.Outcome State Fault Refusal := .next (performRunLut Config.platform s)

/-- RUN_COPY inside the CMD write (R115): validation and acceptance. Its result is written at the completion step,
`resultByte` in Engine.lean. -/
def performRunCopy (p : Platform) (s : State) : State := whenIdle (startRun p .copy) s

/-- RUN_COPY on the machine's own platform (log 2). -/
def execRunCopy (s : State) : Host.Outcome State Fault Refusal := .next (performRunCopy Config.platform s)

end Sys2Proof.Machine
end

