-- ==== Sys2Proof/Machine/Dispatch.lean ====
section
/-! DEFINITION. The meaning of each command inside the HOST's CMD write (30_encoding.md R83, R85): one arm per
constructor of Instr. -/

namespace Sys2Proof.Machine

/-- What a command word does in the CMD write that delivers it. -/
def exec (i : Instr) (s : State) : Host.Outcome State Fault Refusal :=
  match i with
  | .nop => Sys2Proof.Machine.execNop s
  | .loadPreset id => Sys2Proof.Machine.execLoadPreset id s
  | .runDirect => Sys2Proof.Machine.execRunDirect s
  | .runLut => Sys2Proof.Machine.execRunLut s
  | .runCopy => Sys2Proof.Machine.execRunCopy s
  | .softReset => Sys2Proof.Machine.execSoftReset s

end Sys2Proof.Machine
end

