-- ==== Sys2Proof/Machine/Engine.lean ====
section
/-! DEFINITION. The ENGINE's only step, the completion of the run in progress (30_encoding.md R92). -/

namespace Sys2Proof.Machine

/-- `F(job, memory)` at pixel `(x, y)`, channel `c`, by the job's opcode (R92). -/
def resultByte (job : Job) (m : Memory) (x y c : Nat) : Byte :=
  match job.mode with
  | .direct => directByte job m x y c
  | .lut => lutByte job m x y c
  | .copy => copyByte job m x y c

/-- `F(job, memory)` at offset `o` of the destination region, whose pixels are row-major and three bytes each
(20_memory.md R52). -/
def resultAt (job : Job) (m : Memory) (o : Nat) : Byte :=
  resultByte job m (o / 3 % job.width.toNat) (o / 3 / job.width.toNat) (o % 3)

/-- Memory as the ENGINE's source reads find it: the bytes the HOST had not written back are free values, and every other
byte is as memory holds it (20_memory.md R72, 60_exceptions.md R173: no value is specified for a stale byte the engine
reads). One value a byte: the completion step reads memory as it stands at one indivisible step (30_encoding.md R92;
log 8). -/
def sourceView (job : Job) (s : State) : Memory := (scribble job.source (fun a => job.unclean.contains a) s).mem

/-- Writes the result image to the destination region (20_memory.md R54), from the source region as the ENGINE finds it at
this step (R66, R92). What a pixel does not read from the source is as its rule says, whatever the HOST's duties: the
border is 0 (41_direct_convolve.md R101, R102). -/
def writeResult (p : Platform) (job : Job) (s : State) : State :=
  noteEngineWrites p job.dest
    { s with
      mem := fill s.mem job.dest.base (fun _ => true) (resultAt job (sourceView job s)) job.dest.size
      draws := s.draws + job.source.size }

/-- Every byte of both regions answers the engine (20_memory.md R73). -/
def regionsBacked (p : Platform) (job : Job) : Bool := allIn job.source (memOk p) && allIn job.dest (memOk p)

/-- Two broken HOST duties make every byte of the run's destination unspecified: a race (20_memory.md R69), and a region
that is not ordinary memory (R62; log 7). -/
def resultUnspecified (p : Platform) (job : Job) : Bool :=
  job.race || !(allIn job.source (ordinary p) && allIn job.dest (ordinary p))

/-- The completion step of a run (30_encoding.md R92). BUS_ERROR takes precedence over the race (60_exceptions.md
R160). -/
def completeRun (p : Platform) (job : Job) (s : State) : State :=
  if !regionsBacked p job then raiseError .busError (scribbleDest p job s)
  else if resultUnspecified p job then complete (scribbleDest p job s)
  else complete (writeResult p job s)

/-- The ENGINE's turn: its completion step is enabled exactly when BUSY = 1 (30_encoding.md R92); idle, it does nothing
(60_exceptions.md R172). -/
def engineTurn (p : Platform) (s : State) : State :=
  match s.job with
  | none => s
  | some job => completeRun p job s

end Sys2Proof.Machine
end

