-- ==== Sys2Proof/Machine/Flags.lean ====
section
/-! DEFINITION. The flags as words: the error codes, STATUS, IRQ_EN, and the interrupt line. -/

namespace Sys2Proof.Machine

/-- The 4-bit code of an error (60_exceptions.md R153). -/
def ErrCode.code : ErrCode → BitVec 4
  | .none => 0x0#4
  | .badCommand => 0x1#4
  | .unknownFilter => 0x2#4
  | .badDims => 0x3#4
  | .divZero => 0x4#4
  | .badIter => 0x5#4
  | .addrRange => 0x6#4
  | .overlap => 0x7#4
  | .tooLarge => 0x8#4
  | .busError => 0x9#4

/-- STATUS as a HOST reads it: BUSY is bit 0, DONE 1, ERR 2, OVF 3, ERRCODE [11:8], the rest reserved (10_state.md
section 4). -/
def statusWord (s : State) : Word :=
  0#20 ++ s.regs.status.errcode.code ++ 0#4 ++ BitVec.ofBool s.regs.status.ovf ++ BitVec.ofBool s.regs.status.err
    ++ BitVec.ofBool s.regs.status.done ++ BitVec.ofBool s.busy

/-- IRQ_EN as a HOST reads it (10_state.md R32). -/
def IrqEn.word (e : IrqEn) : Word :=
  0#29 ++ BitVec.ofBool e.ovfIe ++ BitVec.ofBool e.errIe ++ BitVec.ofBool e.doneIe

/-- What a HOST write of `v` to IRQ_EN stores (10_state.md R32). -/
def irqEnOf (v : Word) : IrqEn := { doneIe := v[0], errIe := v[1], ovfIe := v[2] }

/-- The interrupt line, a pure function of the state (60_exceptions.md R163). -/
def State.irq (s : State) : Bool :=
  (s.regs.status.done && s.regs.irqEn.doneIe) || (s.regs.status.err && s.regs.irqEn.errIe)
    || (s.regs.status.ovf && s.regs.irqEn.ovfIe)

end Sys2Proof.Machine
end

