-- ==== Sys2Proof/Machine/Operands.lean ====
section
/-! DEFINITION. The register map and what a HOST reads from each register (10_state.md R17 to R43); the operands of the
commands are these registers (30_encoding.md R76). -/

namespace Sys2Proof.Machine

/-- The named registers of 10_state.md R19. -/
inductive Reg where
  | id
  | cap
  | maxpix
  | cmd
  | status
  | irqEn
  | width
  | height
  | iter
  | srcBase
  | dstBase
  | div
  | k (n : Fin 9)
  | cycleLo
  | cycleHi
  | opcycLo
  | opcycHi
  deriving DecidableEq, Repr

/-- The offset of a register from REG_BASE (10_state.md R19). -/
def Reg.offset : Reg → BitVec 8
  | .id => 0x00#8
  | .cap => 0x04#8
  | .maxpix => 0x08#8
  | .cmd => 0x0C#8
  | .status => 0x10#8
  | .irqEn => 0x14#8
  | .width => 0x18#8
  | .height => 0x1C#8
  | .iter => 0x20#8
  | .srcBase => 0x24#8
  | .dstBase => 0x28#8
  | .div => 0x2C#8
  | .k n => BitVec.ofNat 8 (0x30 + 4 * n.val)
  | .cycleLo => 0x60#8
  | .cycleHi => 0x64#8
  | .opcycLo => 0x68#8
  | .opcycHi => 0x6C#8

/-- Every named register, in the order of the map (10_state.md R19). -/
def allRegs : List Reg :=
  [.id, .cap, .maxpix, .cmd, .status, .irqEn, .width, .height, .iter, .srcBase, .dstBase, .div, .k 0, .k 1, .k 2,
    .k 3, .k 4, .k 5, .k 6, .k 7, .k 8, .cycleLo, .cycleHi, .opcycLo, .opcycHi]

/-- The register at an offset, or none where R19 names none (10_state.md R18: RAZ/WI). -/
def regAt (offset : BitVec 8) : Option Reg := allRegs.find? (fun r => r.offset == offset)

/-- The offset in the block of a bus address, where the address is in the block `REG_BASE .. REG_BASE+0xFF` (10_state.md
R17). -/
def blockOffset (p : Platform) (a : Word) : Option (BitVec 8) :=
  if p.regBase.toNat ≤ a.toNat ∧ a.toNat < p.regBase.toNat + 256 then
    some (BitVec.ofNat 8 (a.toNat - p.regBase.toNat))
  else none

/-- A HOST access must be 32 bits wide at an offset that is a multiple of 4 (10_state.md R17). -/
def legalAccess (bits : Nat) (offset : BitVec 8) : Bool := bits == 32 && offset.toNat % 4 == 0

/-- A weight as a HOST reads it: sign-extended from 8 bits (10_state.md R39). -/
def weightWord (w : Weight) : Word := w.signExtend 32

/-- The value a HOST reads from a register (10_state.md R22 to R43). -/
def regValue (p : Platform) (r : Reg) (s : State) : Word :=
  match r with
  | .id => 0x434E5633#32
  | .cap => 0x00000838#32
  | .maxpix => p.maxPixels
  | .cmd => 0#32
  | .status => statusWord s
  | .irqEn => s.regs.irqEn.word
  | .width => s.regs.width.setWidth 32
  | .height => s.regs.height.setWidth 32
  | .iter => s.regs.iter.setWidth 32
  | .srcBase => s.regs.srcBase
  | .dstBase => s.regs.dstBase
  | .div => s.regs.div.setWidth 32
  | .k n => weightWord s.regs.kernel[n]
  | .cycleLo => s.cycle.extractLsb' 0 32
  | .cycleHi => s.cycleHi
  | .opcycLo => s.regs.opcyc.extractLsb' 0 32
  | .opcycHi => s.regs.opcyc.extractLsb' 32 32

/-- The one register read with a side effect: CYCLE_LO latches the CYCLE_HI shadow (10_state.md R20, R41). -/
def afterRead (r : Reg) (s : State) : State :=
  match r with
  | .cycleLo => { s with cycleHi := s.cycle.extractLsb' 32 32 }
  | .id | .cap | .maxpix | .cmd | .status | .irqEn | .width | .height | .iter | .srcBase | .dstBase | .div | .k _
  | .cycleHi | .opcycLo | .opcycHi => s

/-- A HOST write to a register other than CMD (10_state.md R18, R31 to R39): the field's bits are stored, reserved bits
and read-only registers ignore the write. (A write to CMD delivers a command and stores nothing, R25.) -/
def storeReg (r : Reg) (v : Word) (s : State) : State :=
  match r with
  | .status => acknowledge v s
  | .irqEn => { s with regs := { s.regs with irqEn := irqEnOf v } }
  | .width => { s with regs := { s.regs with width := v.setWidth 16 } }
  | .height => { s with regs := { s.regs with height := v.setWidth 16 } }
  | .iter => { s with regs := { s.regs with iter := v.setWidth 16 } }
  | .srcBase => { s with regs := { s.regs with srcBase := v } }
  | .dstBase => { s with regs := { s.regs with dstBase := v } }
  | .div => { s with regs := { s.regs with div := v.setWidth 16 } }
  | .k n => { s with regs := { s.regs with kernel := s.regs.kernel.set n (v.setWidth 8) } }
  | .id | .cap | .maxpix | .cmd | .cycleLo | .cycleHi | .opcycLo | .opcycHi => s

end Sys2Proof.Machine
end

