-- ==== Sys2Proof/Machine/HostPort.lean ====
section
/-! DEFINITION. The moves of the outside world: HOST register accesses (10_state.md R17 to R43), HOST memory accesses
(20_memory.md R68), cache duties (R72), `wait` (30_encoding.md R82), the pins (60_exceptions.md R169), and the platform
(R173). The platform is an argument of each that depends on it (00_scope.md R6). -/

namespace Sys2Proof.Machine

/-- The HOST's bus answers the access in progress (log 12). -/
def answer (r : Response) (s : State) : State := { s with resp := r }

/-- What a command does on the platform `p`. On the machine's own platform it is `exec`. -/
def execOn (p : Platform) (i : Instr) (s : State) : Host.Outcome State Fault Refusal :=
  match i with
  | .nop => .next (performNop s)
  | .loadPreset id => .next (performLoadPreset id s)
  | .runDirect => .next (performRunDirect p s)
  | .runLut => .next (performRunLut p s)
  | .runCopy => .next (performRunCopy p s)
  | .softReset => .next (performSoftReset p s)

/-- A HOST write of `w` to CMD (10_state.md R25, 30_encoding.md R85, R87, R88): the word's command is executed; an
ILLEGAL word raises BAD_COMMAND when idle and is dropped when busy (R79). -/
def deliver (p : Platform) (w : Word) (s : State) : Host.Outcome State Fault Refusal :=
  match decode w with
  | .ok i => execOn p i s
  | .error _ => .next (whenIdle (raiseError .badCommand) s)

/-- A HOST read of a register (10_state.md R20). -/
def readReg (p : Platform) (r : Reg) (s : State) : State := afterRead r (answer (.word (regValue p r s)) s)

/-- A HOST write of a register (10_state.md R20, R25). -/
def writeReg (p : Platform) (r : Reg) (v : Word) (s : State) : Host.Outcome State Fault Refusal :=
  match r with
  | .cmd => deliver p v (answer .ack s)
  | .id | .cap | .maxpix | .status | .irqEn | .width | .height | .iter | .srcBase | .dstBase | .div | .k _ | .cycleLo
  | .cycleHi | .opcycLo | .opcycHi => .next (storeReg r v (answer .ack s))

/-- An access at an offset R19 does not name reads as zero and ignores writes (10_state.md R18). -/
def razWi (op : RegOp) (s : State) : State :=
  match op with
  | .read => answer (.word 0#32) s
  | .write _ => answer .ack s

/-- An access to the register at `offset`, once its form is known to be legal (10_state.md R17, R18). While `rst_n` is
low the engine stays in reset (70_reset_and_hazards.md R175): a read returns the register's value, which is its reset
value, and a write changes nothing (log 9). -/
def accessReg (p : Platform) (offset : BitVec 8) (op : RegOp) (s : State) : Host.Outcome State Fault Refusal :=
  match regAt offset, op with
  | none, op => .next (razWi op s)
  | some r, .read => .next (readReg p r s)
  | some r, .write v => if s.rstLow then .next (answer .ack s) else writeReg p r v s

/-- A HOST access at the register port: a malformed one gets a bus error response and changes no engine state
(10_state.md R17). -/
def regPort (p : Platform) (bits : Nat) (offset : BitVec 8) (op : RegOp) (s : State) : Host.Outcome State Fault Refusal :=
  if !legalAccess bits offset then .next (answer .busError s) else accessReg p offset op s

/-- A HOST register access by bus address (10_state.md R17). An address outside the block is not CONV3's to answer
(log 12). -/
def busAccess (p : Platform) (bits : Nat) (a : Word) (op : RegOp) (s : State) : Host.Outcome State Fault Refusal :=
  match blockOffset p a with
  | some offset => regPort p bits offset op s
  | none => .next (answer .none s)

/-- Whether the address lies in the destination region of the run in progress. -/
def inRunningDest (s : State) (a : Nat) : Bool :=
  match s.job with
  | none => false
  | some j => holds j.dest a

/-- Whether a HOST read of the byte returns an unspecified value: a destination byte while BUSY (20_memory.md R68), a
stale cached copy (R72; log 8), or memory that is not ordinary (R62; log 7). -/
def readUnspecified (p : Platform) (s : State) (a : Nat) : Bool :=
  inRunningDest s a || (!p.coherent && s.stale.contains a) || !ordinary p a

/-- A HOST read of one byte of system memory (20_memory.md R68). An unbacked address gets a bus error response (00_scope.md
R11; log 6). -/
def hostRead (p : Platform) (a : Word) (s : State) : State :=
  if !memOk p a.toNat then answer .busError s
  else if readUnspecified p s a.toNat then
    { answer (.byte (Config.drawByte s.draws)) s with draws := s.draws + 1 }
  else answer (.byte (readByte s.mem a.toNat)) s

/-- A HOST write into a region of the run in progress sets the race flag (10_state.md R45, 20_memory.md R68). -/
def noteRace (a : Nat) (s : State) : State :=
  match s.job with
  | none => s
  | some j => { s with job := some { j with race := j.race || holds j.source a || holds j.dest a } }

/-- Where COHERENT is false, the byte the HOST wrote is its own copy, and dirty until it is written back (20_memory.md
R72; log 8). -/
def noteHostWrite (p : Platform) (a : Nat) (s : State) : State :=
  if p.coherent then s
  else
    { s with
      dirty := a :: s.dirty.filter (fun x => x != a)
      stale := s.stale.filter (fun x => x != a) }

/-- A HOST write of one byte of system memory (20_memory.md R68). An unbacked address gets a bus error response and
nothing is written (00_scope.md R11; log 6). -/
def hostWrite (p : Platform) (a : Word) (b : Byte) (s : State) : State :=
  if !memOk p a.toNat then answer .busError (noteRace a.toNat s)
  else
    answer .ack
      (noteHostWrite p a.toNat (noteRace a.toNat { s with mem := writeByte s.mem a.toNat b }))

/-- The HOST writes back its cached copies of a range (20_memory.md R72; log 8). Memory holds the HOST's bytes already, so
nothing is written. DESIGN CHOICE, unsafe: the write-back of a dirty destination byte, during a run or after it, is no HOST
write in the sense of R68. It sets no race flag, and where the engine has written the byte, the engine's byte stands (R45,
R72 and R181 do not say; log 8). -/
def cleanCache (r : Region) (s : State) : State := { s with dirty := s.dirty.filter (fun a => !holds r a) }

/-- The HOST invalidates its cached copies of a range (20_memory.md R72). Whether a write of its own that it had not
written back had reached memory is not stated, so such a byte becomes a free value (log 8). -/
def invalidateCache (p : Platform) (r : Region) (s : State) : State :=
  if p.coherent then s
  else
    cleanCache r
      { scribble r (fun a => memOk p a && s.dirty.contains a) s with
        stale := s.stale.filter (fun a => !holds r a) }

/-- One poll of `wait` (30_encoding.md R82): a read of STATUS. With BUSY = 0 the loop ends; with BUSY = 1 the HOST polls
again, and after its last failing poll the ENGINE has its turn first (log 14). -/
def waitPoll (p : Platform) (polls : Nat) (s : State) : State :=
  let s' := readReg p .status s
  if s.busy then
    match polls with
    | 0 => { s' with agenda := .engine :: .wait 0 :: s'.agenda }
    | n + 1 => { s' with agenda := .wait n :: s'.agenda }
  else s'

/-- The platform changes `mem_ok`: during a run, the model has no move for it (60_exceptions.md R173, 93 U24, U25). While
idle it has none either: `mem_ok` is a parameter of the step relation (00_scope.md R6), so from a change on the machine is
`stepOn` of another platform (log 13). -/
def remapMemory (_ : State) : Host.Outcome State Fault Refusal := .fault .memOkChanged

/-- The frequency of `clk`: a frequency other than F_CLK is a case the model has no move for (60_exceptions.md R173, 93
U25; log 13). -/
def setClock (p : Platform) (hz : Nat) (s : State) : Host.Outcome State Fault Refusal :=
  if hz = p.fClk then .next s else .fault .clockNotFclk

/-- One move, once it has left the agenda and time has passed. -/
def perform (p : Platform) (e : Event) (s : State) : Host.Outcome State Fault Refusal :=
  match e with
  | .engine => .next (engineTurn p s)
  | .reg bits offset op => regPort p bits offset op s
  | .bus bits a op => busAccess p bits a op s
  | .memRead a => .next (hostRead p a s)
  | .memWrite a b => .next (hostWrite p a b s)
  | .wait polls => .next (waitPoll p polls s)
  | .cacheClean r => .next (cleanCache r s)
  | .cacheInvalidate r => .next (invalidateCache p r s)
  | .rstAssert => .next (powerOnReset p s)
  | .rstRelease => .next { s with rstLow := false }
  | .remap => remapMemory s
  | .clock hz => setClock p hz s

/-- What every step does before its move: the move leaves the agenda, time passes, and no answer stands yet. -/
def arrive (rest : List Event) (s : State) : State := tick { s with agenda := rest, resp := .none }

/-- One step: the next move of the agenda; the ENGINE moves where the outside world has no move left (30_encoding.md
R93; log 1). -/
def nextMove (p : Platform) (s : State) : Host.Outcome State Fault Refusal :=
  match s.agenda with
  | [] => perform p .engine (arrive [] s)
  | e :: rest => perform p e (arrive rest s)

/-- The HOST's write of a command word to CMD, 32 bits wide at offset 0x0C (10_state.md R25). -/
def cmdWrite (w : Word) : Event := .reg 32 0x0C#8 (.write w)

/-- The command word is the HOST's next move, and `rst_n` is high. Everything else stands. -/
def withCommand (w : Word) (s : State) : State := { s with agenda := cmdWrite w :: s.agenda, rstLow := false }

end Sys2Proof.Machine
end

