-- ==== Sys2Proof/Machine/Step.lean ====
section
/-! DEFINITION. The step relation with the configuration as its parameter, the step function, and how a command comes to
be the next one. -/

namespace Sys2Proof.Machine

/-- The step relation of CONV3 on the platform `p` (00_scope.md R6: the configuration is its parameter): one HOST step, one
ENGINE step, or one move of a pin or of the platform (R7; log 1). -/
def stepOn (p : Platform) (s : State) : Host.Outcome State Fault Refusal := nextMove p s

/-- One step of the machine, on a platform of which nothing is known but that it is well formed (log 2). -/
def step (s : State) : Host.Outcome State Fault Refusal := stepOn Config.platform s

/-- `s` with the command word `w` (its low `nbits` bits) as the HOST's next CMD write, so that the next step delivers
exactly it (10_state.md R25). Nothing is fetched in CONV3: a program comes from the HOST (log 1). -/
def State.withFetchWord (s : State) (nbits w : Nat) : State := withCommand (BitVec.ofNat 32 (w % 2 ^ nbits)) s

end Sys2Proof.Machine
end

