-- ==== Sys2Proof/Machine/Script.lean ====
section
/-! DEFINITION. The HOST-script notation (30_encoding.md R81, R82, 43_control.md R148): each line of a script as the
moves it puts on the agenda. Registers are accessed by bus address, REG_BASE + offset. -/

namespace Sys2Proof.Machine

/-- One line of a HOST script. -/
inductive ScriptLine where
  /-- `wr REG, v`. -/
  | wr (r : Reg) (v : Word)
  /-- `rd REG`. -/
  | rd (r : Reg)
  /-- `mem A: b0 b1 ...`: the bytes at A, A+1, and so on. DESIGN CHOICE, unsafe: past 0xFFFFFFFF the addresses wrap
  modulo 2^32, since an address has 32 bits; R81 does not say (log 17). -/
  | mem (a : Word) (bytes : List Byte)
  /-- `cmd X`. -/
  | cmd (i : Instr)
  /-- `setk w0, ..., w8`. -/
  | setk (weights : Vector Int 9)
  /-- `wait`, with the number of failing polls before the ENGINE's turn (log 14). -/
  | wait (polls : Nat)
  /-- `snap`. -/
  | snap
  deriving DecidableEq, Repr

/-- The bus address of a register (10_state.md R19). -/
def regAddr (p : Platform) (r : Reg) : Word := p.regBase + r.offset.setWidth 32

/-- `wr REG, v`: one 32-bit write (R81). -/
def busWrite (p : Platform) (r : Reg) (v : Word) : Event := .bus 32 (regAddr p r) (.write v)

/-- `rd REG`: one 32-bit read (R81). -/
def busRead (p : Platform) (r : Reg) : Event := .bus 32 (regAddr p r) .read

/-- The bus transactions of a script line, in order (R81, R82, R148). The addresses of a `mem` line are taken modulo 2^32
(log 17). -/
def ScriptLine.moves (p : Platform) : ScriptLine → List Event
  | .wr r v => [busWrite p r v]
  | .rd r => [busRead p r]
  | .mem a bytes => (List.range bytes.length).map fun i => .memWrite (a + BitVec.ofNat 32 i) (bytes.getD i 0#8)
  | .cmd i => [busWrite p .cmd (encode i)]
  | .setk weights => (List.finRange 9).map fun n => busWrite p (.k n) (BitVec.ofInt 32 weights[n])
  | .wait polls => [.wait polls]
  | .snap => [busRead p .cycleLo, busRead p .cycleHi]

/-- A script as the agenda it makes. -/
def scriptMoves (p : Platform) (script : List ScriptLine) : List Event := script.flatMap (fun l => l.moves p)

/-- A HOST program ends when its last line has executed and BUSY = 0 (70_reset_and_hazards.md R186). -/
def State.programEnded (s : State) : Bool := s.agenda.isEmpty && !s.busy

end Sys2Proof.Machine
end

