-- ==== Sys2Proof/Safety.lean ====
section
/-! DEFINITION. What holds of every state a run can reach: the invariant of CONV3. -/

namespace Sys2Proof.Machine

/-- The job passed validation on this platform (60_exceptions.md R158). -/
def Job.valid (p : Platform) (j : Job) : Prop := firstError p j = none

/-- STATUS is consistent: DONE and ERR are never both 1 (10_state.md R28), and ERRCODE is NONE exactly when ERR is 0
(R30, 60_exceptions.md R153). -/
def Status.consistent (st : Status) : Prop := ¬(st.done = true ∧ st.err = true) ∧ (st.err = true ↔ st.errcode ≠ .none)

/-- The engine holds its power-on reset values (70_reset_and_hazards.md R176). -/
def State.atReset (s : State) : Prop := s.regs = RegBlock.reset ∧ s.cycle = 0 ∧ s.cycleHi = 0 ∧ s.job = none

/-- The invariant every step on the platform `p` keeps. -/
structure State.Inv (p : Platform) (s : State) : Prop where
  /-- Memory is in its canonical form. -/
  memory : s.mem.wf = true
  /-- STATUS is consistent. -/
  status : s.regs.status.consistent
  /-- While BUSY, DONE and ERR are 0: acceptance cleared them and the run has not ended (30_encoding.md R86, R87). -/
  running : s.busy = true → s.regs.status.done = false ∧ s.regs.status.err = false
  /-- The run in progress passed validation, on that platform. -/
  validated : ∀ j, s.job = some j → j.valid p
  /-- While `rst_n` is low the engine stays in reset (70_reset_and_hazards.md R175). -/
  inReset : s.rstLow = true → s.atReset

end Sys2Proof.Machine
end

