-- ==== Sys2Proof/Certificates/Slice0/Obligations.lean ====
section
/-! DEFINITION. The statements for the provers. Each docstring names the rule of spec/ the statement formalises, or says
what it rests on. -/

open Sys2Proof Sys2Proof.Machine

namespace Sys2Proof.Spec

/-! ### The spec's own words, written out again for the statements -/

/-- W, the width in pixels (00_scope.md R13). -/
abbrev W (s : State) : Nat := s.regs.width.toNat

/-- H, the height in pixels (00_scope.md R13). -/
abbrev H (s : State) : Nat := s.regs.height.toNat

/-- The size of the image the registers describe, in bytes (20_memory.md R52). -/
abbrev bytes (s : State) : Nat := 3 * W s * H s

/-- The address lies in the source region the registers describe (20_memory.md R53). -/
abbrev inSource (s : State) (a : Nat) : Prop := s.regs.srcBase.toNat ≤ a ∧ a < s.regs.srcBase.toNat + bytes s

/-- The address lies in the destination region the registers describe (20_memory.md R54). -/
abbrev inDest (s : State) (a : Nat) : Prop := s.regs.dstBase.toNat ≤ a ∧ a < s.regs.dstBase.toNat + bytes s

/-- The address lies in a job's source region. -/
abbrev inJobSource (j : Job) (a : Nat) : Prop :=
  j.srcBase.toNat ≤ a ∧ a < j.srcBase.toNat + 3 * j.width.toNat * j.height.toNat

/-- The address lies in a job's destination region. -/
abbrev inJobDest (j : Job) (a : Nat) : Prop :=
  j.dstBase.toNat ≤ a ∧ a < j.dstBase.toNat + 3 * j.width.toNat * j.height.toNat

/-- The checks every run command makes pass: the image has pixels, and its two regions neither run off the address space
nor overlap (60_exceptions.md R158, checks 2, 5 and 6). -/
structure Geometry (s : State) : Prop where
  width : 0 < W s
  height : 0 < H s
  srcFits : s.regs.srcBase.toNat + bytes s ≤ 2 ^ 32
  dstFits : s.regs.dstBase.toNat + bytes s ≤ 2 ^ 32
  disjoint : s.regs.srcBase.toNat + bytes s ≤ s.regs.dstBase.toNat ∨
    s.regs.dstBase.toNat + bytes s ≤ s.regs.srcBase.toNat

/-- The HOST's duties for the two regions of a run from these registers on the platform `p`: both backed (20_memory.md R73)
and ordinary (R62). -/
structure Duties (p : Platform) (s : State) : Prop where
  backed : ∀ a, inSource s a ∨ inDest s a → memOk p a = true
  ordinary : ∀ a, inSource s a ∨ inDest s a → ordinary p a = true

/-- The HOST's last write of the byte, if any, is visible to the ENGINE: on a platform with COHERENT false it has been
written back (20_memory.md R66, R72; `dirty` is the model's account of that, log 8). -/
abbrev visible (p : Platform) (s : State) (a : Nat) : Prop := p.coherent = true ∨ a ∉ s.dirty

/-- `regs` with DONE, ERR and ERRCODE cleared by acceptance (30_encoding.md R87), then DONE, ERR and ERRCODE as given;
OVF and every other register stand. -/
def withEnd (r : RegBlock) (done err : Bool) (code : ErrCode) : RegBlock :=
  { r with status := { done := done, err := err, ovf := r.status.ovf, errcode := code } }

/-- The state after a command that ended at once, with DONE, or with ERR and a code: STATUS is all that changed. -/
def ended (s : State) (done err : Bool) (code : ErrCode) : State := { s with regs := withEnd s.regs done err code }

/-- The state after acceptance of a run command (30_encoding.md R91): STATUS cleared, the job the snapshot of the
registers, BUSY = 1. `unclean` is the model's own field: the source bytes that are not `visible` (log 8). -/
def accepted (s : State) (mode : RunMode) (unclean : List Nat) : State :=
  { ended s false false .none with
    job :=
      some
        { mode := mode
          width := s.regs.width
          height := s.regs.height
          iter := s.regs.iter
          srcBase := s.regs.srcBase
          dstBase := s.regs.dstBase
          div := s.regs.div
          kernel := s.regs.kernel
          startCycle := s.cycle
          race := false
          unclean := unclean } }

/-- The state after a word was dropped (30_encoding.md R88): OVF is all that changed. -/
def dropped (s : State) : State :=
  { s with regs := { s.regs with status := { s.regs.status with ovf := true } } }

/-- The command of a run mode. -/
def runInstr : RunMode → Instr
  | .direct => .runDirect
  | .lut => .runLut
  | .copy => .runCopy

/-- The weight at row `i`, column `j`, as an integer (10_state.md R39). -/
def kernelWeight (kernel : Kernel) (i j : Nat) : Int := ((kernel.toList.getD (3 * i + j) 0#8).toInt)

/-- The nine terms of row-major order, `t i j` for row `i` and column `j`. -/
def nineTerms (t : Nat → Nat → Int) : Int :=
  t 0 0 + t 0 1 + t 0 2 + t 1 0 + t 1 1 + t 1 2 + t 2 0 + t 2 1 + t 2 2

/-- `src(x, y, c)` of the image at `base` (20_memory.md R53). -/
def pixel (m : Memory) (base w x y c : Nat) : Byte := readByte m (base + 3 * (y * w + x) + c)

/-- The byte of `pixel` where the bytes of memory are as the ENGINE reads them, `v`. -/
def seenPixel (v : Nat → Byte) (base w x y c : Nat) : Byte := v (base + 3 * (y * w + x) + c)

/-- The sum of R99 for an image `src`. -/
def directSum (kernel : Kernel) (src : Nat → Nat → Byte) (x y : Nat) : Int :=
  nineTerms fun i j => kernelWeight kernel i j * ((src (x + j - 1) (y + i - 1)).toNat : Int)

/-- The direct result at an interior pixel (R100): the sum divided toward zero, then clamped to 0..255. -/
def directResult (kernel : Kernel) (d : Nat) (src : Nat → Nat → Byte) (x y : Nat) : Int :=
  max 0 (min 255 ((directSum kernel src x y).tdiv (d : Int)))

/-- The sum of nine table entries (R108 to R110): each product times 256, divided toward zero. -/
def lutTotal (kernel : Kernel) (d : Nat) (src : Nat → Nat → Byte) (x y : Nat) : Int :=
  nineTerms fun i j => (((src (x + j - 1) (y + i - 1)).toNat : Int) * kernelWeight kernel i j * 256).tdiv (d : Int)

/-- The LUT result at an interior pixel (R111): the sum shifted right by 8 toward minus infinity, its absolute value,
modulo 256. -/
def lutResult (kernel : Kernel) (d : Nat) (src : Nat → Nat → Byte) (x y : Nat) : Int :=
  |lutTotal kernel d src x y / 256| % 256

/-- `interior(x, y)` (00_scope.md R13). -/
abbrev isInterior (w h x y : Nat) : Prop := 1 ≤ x ∧ x + 2 ≤ w ∧ 1 ≤ y ∧ y + 2 ≤ h

/-- What a run leaves besides its result image, from the state `s` of the CMD write to the state `t` after the
completion step: it ended in DONE, every byte outside the destination reads as before, and of the registers only STATUS
and OPCYC changed. -/
structure RunFrame (s t : State) : Prop where
  idle : t.busy = false
  registers : t.regs = { withEnd s.regs true false .none with opcyc := t.regs.opcyc }
  opcyc : t.regs.opcyc ≠ 0#64
  shadow : t.cycleHi = s.cycleHi
  outside : ∀ a, ¬inDest s a → readByte t.mem a = readByte s.mem a

/-- The two moves of a run with nothing between them, from an idle engine: the CMD write of the run word, then the
ENGINE's completion. The agenda is the model's form of who moves next (log 1). -/
structure RunReady (p : Platform) (s : State) (word : Word) (rest : List Event) : Prop where
  memory : s.mem.wf = true
  idle : s.busy = false
  running : s.rstLow = false
  agenda : s.agenda = cmdWrite word :: .engine :: rest
  geometry : Geometry s
  duties : Duties p s

/-- The configuration registers of 10_state.md R21. -/
def isConfig : Reg → Bool
  | .irqEn | .width | .height | .iter | .srcBase | .dstBase | .div | .k _ => true
  | .id | .cap | .maxpix | .cmd | .status | .cycleLo | .cycleHi | .opcycLo | .opcycHi => false

/-- What a configuration register reads as after `v` is written to it (10_state.md R32 to R39, 70_reset_and_hazards.md
R179): reserved bits are 0, a weight is sign-extended. -/
def readBack (r : Reg) (v : Word) : Word :=
  match r with
  | .irqEn => v &&& 0x7#32
  | .width | .height | .iter | .div => v &&& 0xFFFF#32
  | .k _ => if v[7] then v ||| 0xFFFFFF00#32 else v &&& 0xFF#32
  | .srcBase | .dstBase | .id | .cap | .maxpix | .cmd | .status | .cycleLo | .cycleHi | .opcycLo | .opcycHi => v

/-- How many steps the moves of an agenda can take at most. -/
def agendaWeight (moves : List Event) : Nat :=
  (moves.map fun e =>
    match e with
    | .wait polls => polls + 2
    | _ => 1).sum

/-- The next move is a HOST write of `v` to the register `r`, 32 bits wide, at the port or by bus address. -/
def nextIsWrite (p : Platform) (s : State) (r : Reg) (v : Word) : Prop :=
  s.agenda.head? = some (.reg 32 r.offset (.write v)) ∨
    ∃ a, s.agenda.head? = some (.bus 32 a (.write v)) ∧ blockOffset p a = some r.offset

/-- What SOFT_RESET leaves (43_control.md R146, R147): every register, the shadow and the job at their reset values, CYCLE
as it was, and memory as it was but for the backed destination bytes of an aborted run. -/
structure AfterSoftReset (p : Platform) (s t : State) : Prop where
  registers : t.regs =
    { status := { done := false, err := false, ovf := false, errcode := .none }
      irqEn := { doneIe := false, errIe := false, ovfIe := false }
      width := 0
      height := 0
      iter := 1
      srcBase := 0
      dstBase := 0
      div := 0
      kernel := #v[0, 0, 0, 0, 0, 0, 0, 0, 0]
      opcyc := 0 }
  shadow : t.cycleHi = 0#32
  job : t.job = none
  cycle : t.cycle = s.cycle
  pin : t.rstLow = s.rstLow
  agenda : t.agenda = s.agenda
  line : t.irq = false
  status : statusWord t = 0#32
  constants : ∀ r ∈ [Reg.id, .cap, .maxpix], regValue p r t = regValue p r s
  idleMemory : s.busy = false → t.mem = s.mem
  memory : ∀ j, s.job = some j →
    ∀ a, (¬inJobDest j a ∨ memOk p a = false) → readByte t.mem a = readByte s.mem a

/-- The machine on the platform `p`. -/
abbrev coreOn (p : Platform) : Host.Core :=
  { State := State, Fault := Fault, Refusal := Refusal, step := stepOn p, reset := State.reset }

/-- `n` steps of the machine on the platform `p`. -/
abbrev runOn (p : Platform) (n : Nat) (s : State) : Host.Outcome State Fault Refusal := Host.Core.run (coreOn p) n s

end Sys2Proof.Spec

open Sys2Proof.Spec

/-! ### Encoding -/

/-- No bit of a command is lost between its word and its decoding. -/
def Obligations.DecodeOfEncodeIsTheCommand : Prop := ∀ i : Instr, i.wf = true → decode (encode i) = .ok i

/-- A word has one meaning: a word that decodes to a command is that command's one encoding, and the command is well
formed. -/
def Obligations.EncodeOfDecodeIsTheWord : Prop :=
  ∀ (w : Word) (i : Instr), decode w = .ok i → encode i = w ∧ i.wf = true

/-- R77 and R78: each row of the opcode map by its own match and mask; at most one row matches; a word no row matches is
ILLEGAL; decoding is total. -/
def Obligations.DecodeFollowsTheOpcodeMap : Prop :=
  ∀ w : Word,
    (decode w = .ok .nop ↔ w &&& 0xFFFFFFFF#32 = 0x00000000#32) ∧
    (∀ id, decode w = .ok (.loadPreset id) ↔ w &&& 0xFFFF00FF#32 = 0x00000001#32 ∧ id = w.toNat / 256 % 256) ∧
    (decode w = .ok .runDirect ↔ w &&& 0xFFFFFFFF#32 = 0x00000002#32) ∧
    (decode w = .ok .runLut ↔ w &&& 0xFFFFFFFF#32 = 0x00000003#32) ∧
    (decode w = .ok .runCopy ↔ w &&& 0xFFFFFFFF#32 = 0x00000004#32) ∧
    (decode w = .ok .softReset ↔ w &&& 0xFFFFFFFF#32 = 0x00000005#32) ∧
    ((∃ i, decode w = .ok i) ∨ ∃ k, decode w = .error k)

/-- R79: the three kinds of ILLEGAL word and no other; idle, such a word raises BAD_COMMAND and changes no state other
than STATUS; busy, it is dropped with OVF; an id of 3..255 is not ILLEGAL and raises UNKNOWN_FILTER. -/
def Obligations.IllegalWordsRaiseBadCommand : Prop :=
  (∀ w : Word,
    (∃ k, decode w = .error k) ↔
      6 ≤ w.toNat % 256 ∨ w.toNat / 65536 ≠ 0 ∨ (w.toNat / 256 % 256 ≠ 0 ∧ w.toNat % 256 ≠ 1)) ∧
  (∀ (p : Platform) (w : Word) (k : Illegal) (s : State), decode w = .error k →
    (s.busy = false → deliver p w s = .next (ended s false true .badCommand)) ∧
    (s.busy = true → deliver p w s = .next (dropped s))) ∧
  (∀ (p : Platform) (id : Nat) (s : State), 3 ≤ id → id ≤ 255 →
    decode (BitVec.ofNat 32 (256 * id + 1)) = .ok (.loadPreset id) ∧
    (s.busy = false → deliver p (BitVec.ofNat 32 (256 * id + 1)) s = .next (ended s false true .unknownFilter)))

/-- Sanity, from the table of words in 95_test_vectors.md L2.1. -/
def Obligations.SampleWordsDecode : Prop :=
  decode 0b00000000000000000000000000000000#32 = .ok .nop ∧
  decode 0b00000000000000000000000000000001#32 = .ok (.loadPreset 0) ∧
  decode 0b00000000000000000000000100000001#32 = .ok (.loadPreset 1) ∧
  decode 0b00000000000000000000001000000001#32 = .ok (.loadPreset 2) ∧
  decode 0b00000000000000001111111100000001#32 = .ok (.loadPreset 255) ∧
  decode 0b00000000000000000000000000000010#32 = .ok .runDirect ∧
  decode 0b00000000000000000000000000000011#32 = .ok .runLut ∧
  decode 0b00000000000000000000000000000100#32 = .ok .runCopy ∧
  decode 0b00000000000000000000000000000101#32 = .ok .softReset ∧
  decode 0x00000006#32 = .error .opcode ∧
  decode 0x000000FF#32 = .error .opcode ∧
  decode 0x00000100#32 = .error .arg ∧
  decode 0x00000105#32 = .error .arg ∧
  decode 0x00010000#32 = .error .rsvd ∧
  decode 0x80000003#32 = .error .rsvd

/-! ### A step runs the decoded command -/

/-- The HOST's next move is the write of a word to CMD, at the register port or by bus address: the step delivers the word
to the state with the move taken off the agenda, time passed, and the write acknowledged on the bus; nothing else changed
before it. Where the word decodes to `i`, the step is `exec i` of that state. (`ConfigurationIsAParameter` says the same of
the step relation on every platform.) -/
def Obligations.StepRunsTheDecodedCommand : Prop :=
  ∀ (s : State) (w : Word) (m : Event) (rest : List Event), s.rstLow = false → s.agenda = m :: rest →
    (m = cmdWrite w ∨ ∃ a, m = .bus 32 a (.write w) ∧ blockOffset Config.platform a = some 0x0C#8) →
      let arrived :=
        { s with
          agenda := rest
          resp := .ack
          cycle := s.cycle + Config.drawCycles s.draws
          draws := s.draws + 1 }
      step s = deliver Config.platform w arrived ∧ ∀ i, decode w = .ok i → step s = exec i arrived

/-- `withFetchWord` makes a word the next command of any state, and leaves everything but the agenda and `rst_n`. The
agenda is the model's choice (log 1). -/
def Obligations.FetchWordIsTheNextCommand : Prop :=
  ∀ (s : State) (nbits w : Nat) (i : Instr), decodeTableWord nbits w = some i →
    step (s.withFetchWord nbits w) =
        exec i
          { s with
            rstLow := false
            resp := .ack
            cycle := s.cycle + Config.drawCycles s.draws
            draws := s.draws + 1 } ∧
      s.withFetchWord nbits w =
        { s with rstLow := false, agenda := cmdWrite (BitVec.ofNat 32 (w % 2 ^ nbits)) :: s.agenda }

/-- Where the outside world has no move left the ENGINE moves; else the next move of the agenda is performed. The
schedule is the model's choice (log 1). -/
def Obligations.StepPerformsTheNextMove : Prop :=
  ∀ (p : Platform) (s : State),
    (s.agenda = [] → stepOn p s = perform p .engine (arrive [] s)) ∧
    ∀ e rest, s.agenda = e :: rest → stepOn p s = perform p e (arrive rest s)

/-! ### The commands inside the CMD write -/

/-- R145: NOP, from its word to its flags: idle it completes with DONE and nothing else changes; busy it is dropped; from
reset STATUS then reads 0x00000002. -/
def Obligations.NopCompletes : Prop :=
  encode .nop = 0x00000000#32 ∧
  (∀ s : State, s.busy = false → exec .nop s = .next (ended s true false .none)) ∧
  (∀ s : State, s.busy = true → exec .nop s = .next (dropped s)) ∧
  (∃ k, decode 0x00000100#32 = .error k) ∧ (∃ k, decode 0x00010000#32 = .error k) ∧
  ∃ t, exec .nop State.reset = .next t ∧ statusWord t = 0x00000002#32

/-- R94 and R95: the three entries of the preset table, as LOAD_PRESET leaves them in K0..K8 and DIV, with DONE; an id
above 2 raises UNKNOWN_FILTER and keeps K0..K8 and DIV; no other state changes; busy, the word is dropped. The words of the
three entries and the id of every LOAD_PRESET word. -/
def Obligations.LoadPresetLoadsTheTable : Prop :=
  (∀ s : State, s.busy = false →
    exec (.loadPreset 0) s =
      .next { ended s true false .none with
        regs := { withEnd s.regs true false .none with kernel := #v[0, 4, 0, 4, 8, 4, 0, 4, 0], div := 24 } } ∧
    exec (.loadPreset 1) s =
      .next { ended s true false .none with
        regs := { withEnd s.regs true false .none with
          kernel := #v[0xFF, 0, 1, 0xFE, 0, 2, 0xFF, 0, 1], div := 1 } } ∧
    exec (.loadPreset 2) s =
      .next { ended s true false .none with
        regs := { withEnd s.regs true false .none with
          kernel := #v[0xFF, 0xFE, 0xFF, 0, 0, 0, 1, 2, 1], div := 1 } } ∧
    ∀ id, 2 < id → exec (.loadPreset id) s = .next (ended s false true .unknownFilter)) ∧
  (∀ (s : State) (id : Nat), s.busy = true → exec (.loadPreset id) s = .next (dropped s)) ∧
  encode (.loadPreset 0) = 0x00000001#32 ∧ encode (.loadPreset 1) = 0x00000101#32 ∧
  encode (.loadPreset 2) = 0x00000201#32 ∧
  ∀ (w : Word) (id : Nat), decode w = .ok (.loadPreset id) ↔
    w &&& 0xFFFF00FF#32 = 0x00000001#32 ∧ id = (w.extractLsb' 8 8).toNat

/-- R97, inside the CMD write: idle, with every check passed, RUN_DIRECT is accepted with BUSY = 1 and the snapshot;
nothing else changes and no memory is accessed (R91). ITER is not looked at. On every platform the same, where
`u`, the model's own mark, holds exactly the source bytes whose cache duty the HOST skipped (R72; log 8). -/
def Obligations.RunDirectIsAccepted : Prop :=
  (∀ s : State, s.busy = false → Geometry s → 0 < s.regs.div.toNat →
    ∃ u, exec .runDirect s = .next (accepted s .direct u)) ∧
  ∀ (p : Platform) (s : State), s.busy = false → Geometry s → 0 < s.regs.div.toNat →
    ∃ u, (∀ a, a ∈ u ↔ inSource s a ∧ ¬visible p s a) ∧ execOn p .runDirect s = .next (accepted s .direct u)

/-- R106, inside the CMD write: the same for RUN_LUT, whose checks are also ITER and MAX_PIXELS. -/
def Obligations.RunLutIsAccepted : Prop :=
  (∀ s : State, s.busy = false → Geometry s → 0 < s.regs.div.toNat → 0 < s.regs.iter.toNat →
    W s * H s ≤ Config.platform.maxPixels.toNat →
      ∃ u, exec .runLut s = .next (accepted s .lut u)) ∧
  ∀ (p : Platform) (s : State), s.busy = false → Geometry s → 0 < s.regs.div.toNat → 0 < s.regs.iter.toNat →
    W s * H s ≤ p.maxPixels.toNat →
      ∃ u, (∀ a, a ∈ u ↔ inSource s a ∧ ¬visible p s a) ∧ execOn p .runLut s = .next (accepted s .lut u)

/-- R115, inside the CMD write: the same for RUN_COPY, which looks at neither DIV nor ITER. -/
def Obligations.RunCopyIsAccepted : Prop :=
  (∀ s : State, s.busy = false → Geometry s → W s * H s ≤ Config.platform.maxPixels.toNat →
    ∃ u, exec .runCopy s = .next (accepted s .copy u)) ∧
  ∀ (p : Platform) (s : State), s.busy = false → Geometry s → W s * H s ≤ p.maxPixels.toNat →
    ∃ u, (∀ a, a ∈ u ↔ inSource s a ∧ ¬visible p s a) ∧ execOn p .runCopy s = .next (accepted s .copy u)

/-- R158: a command raises the first failing check of the table, in its order, and changes STATUS alone. Check 0 is made
of every word, check 1 of LOAD_PRESET; NOP and SOFT_RESET have no other; a run command's checks are written out in the
table's order, and one with no failing check is accepted. Stated on every platform; `exec` is `execOn` of the machine's
own. -/
def Obligations.ValidationReportsTheFirstFailingCheck : Prop :=
  (∀ (i : Instr) (s : State), exec i s = execOn Config.platform i s) ∧
  (∀ (p : Platform) (s : State) (w : Word) (k : Illegal), s.busy = false → decode w = .error k →
    deliver p w s = .next (ended s false true .badCommand)) ∧
  (∀ (p : Platform) (s : State) (id : Nat), s.busy = false → 2 < id →
    execOn p (.loadPreset id) s = .next (ended s false true .unknownFilter)) ∧
  (∀ (p : Platform) (s : State), s.busy = false →
    (∃ t, execOn p .nop s = .next t ∧ t.regs.status.err = false) ∧
    ∃ t, execOn p .softReset s = .next t ∧ t.regs.status.err = false) ∧
  ∀ (p : Platform) (s : State) (mode : RunMode), s.busy = false →
    let n := bytes s
    let src := s.regs.srcBase.toNat
    let dst := s.regs.dstBase.toNat
    let refused := fun code => execOn p (runInstr mode) s = .next (ended s false true code)
    if W s = 0 ∨ H s = 0 then refused .badDims
    else if mode ≠ .copy ∧ s.regs.div.toNat = 0 then refused .divZero
    else if mode = .lut ∧ s.regs.iter.toNat = 0 then refused .badIter
    else if 0xFFFFFFFF < src + n - 1 ∨ 0xFFFFFFFF < dst + n - 1 then refused .addrRange
    else if src < dst + n ∧ dst < src + n then refused .overlap
    else if mode ≠ .direct ∧ p.maxPixels.toNat < W s * H s then refused .tooLarge
    else ∃ u, execOn p (runInstr mode) s = .next (accepted s mode u)

/-- R88: while BUSY, SOFT_RESET is executed at once and aborts the run, and any other word sets OVF and changes nothing
else, so that the run goes on. -/
def Obligations.BusyDropsEveryWordButSoftReset : Prop :=
  ∀ (p : Platform) (s : State) (w : Word), s.busy = true →
    (w = 0x00000005#32 →
      deliver p w s = execOn p .softReset s ∧ ∃ t, execOn p .softReset s = .next t ∧ t.busy = false) ∧
    (w ≠ 0x00000005#32 → deliver p w s = .next (dropped s))

/-- R87: whatever the word, an idle CMD write that ends in an error changes nothing but STATUS, and OVF not at all. -/
def Obligations.ValidationErrorsChangeOnlyStatus : Prop :=
  ∀ (p : Platform) (s t : State) (w : Word), s.busy = false → deliver p w s = .next t → t.regs.status.err = true →
    ∃ code, code ≠ .none ∧ code ≠ .busError ∧ t = ended s false true code

/-- R146 and R147: SOFT_RESET is the word 0x00000005 and no other; idle or busy, it gives every register, the shadow and
the job their reset values and leaves CYCLE; idle it changes no memory, busy it leaves every byte outside the job's
destination region, and every unbacked byte, as it was. -/
def Obligations.SoftResetRestoresResetValues : Prop :=
  (∀ w : Word, decode w = .ok .softReset ↔ w = 0x00000005#32) ∧
  (∀ s : State, s.mem.wf = true →
    ∃ t, exec .softReset s = .next t ∧ AfterSoftReset Config.platform s t) ∧
  ∀ (p : Platform) (s : State), s.mem.wf = true →
    ∃ t, execOn p .softReset s = .next t ∧ AfterSoftReset p s t

/-! ### Runs, from the CMD write to the completion step -/

/-- R99 to R101, written out: the sum, the quotient and clamp, and the border of the image RUN_DIRECT writes, at every
pixel and channel; with no interior pixel (R102) every byte is 0. `v` is the source as the ENGINE reads it: a visible byte is
as memory holds it, and of one whose cache duty the HOST skipped nothing is said (R72), so the border is 0 whatever the HOST
did. The frame is R97 (the destination bytes and no other), R51 (no access outside the regions), R89 (DONE) and R43 (OPCYC at
least 1). That the two moves are a run rests on the agenda (log 1), and what is visible on `dirty` (log 8): both are the
model's choice. -/
def Obligations.RunDirectWritesTheFilteredImage : Prop :=
  ∀ (p : Platform) (s : State) (rest : List Event), RunReady p s 0x00000002#32 rest → 0 < s.regs.div.toNat →
    ∃ (t : State) (v : Nat → Byte), runOn p 2 s = .next t ∧ RunFrame s t ∧
      (∀ a, visible p s a → v a = readByte s.mem a) ∧
      ∀ x y c, x < W s → y < H s → c < 3 →
        ((pixel t.mem s.regs.dstBase.toNat (W s) x y c).toNat : Int) =
          if isInterior (W s) (H s) x y then
            directResult s.regs.kernel s.regs.div.toNat
              (fun x' y' => seenPixel v s.regs.srcBase.toNat (W s) x' y' c) x y
          else 0

/-- R108 and R110 to R112, written out: the table entries, the sum, the byte and the border of the image RUN_LUT writes,
at every pixel and channel, whatever ITER is (R113). `v` is the source as the ENGINE reads it, as for RUN_DIRECT, and so is
the frame (R106, R51, R89, R43). That the two moves are a run rests on the agenda (log 1), and what is visible on `dirty`
(log 8): both are the model's choice. -/
def Obligations.RunLutWritesTheScaledImage : Prop :=
  ∀ (p : Platform) (s : State) (rest : List Event), RunReady p s 0x00000003#32 rest → 0 < s.regs.div.toNat → 0 < s.regs.iter.toNat →
    W s * H s ≤ p.maxPixels.toNat →
    ∃ (t : State) (v : Nat → Byte), runOn p 2 s = .next t ∧ RunFrame s t ∧
      (∀ a, visible p s a → v a = readByte s.mem a) ∧
      ∀ x y c, x < W s → y < H s → c < 3 →
        ((pixel t.mem s.regs.dstBase.toNat (W s) x y c).toNat : Int) =
          if isInterior (W s) (H s) x y then
            lutResult s.regs.kernel s.regs.div.toNat
              (fun x' y' => seenPixel v s.regs.srcBase.toNat (W s) x' y' c) x y
          else 0

/-- R116: after RUN_COPY every destination byte equals the source byte at the same offset, border included, where that byte
is visible to the ENGINE (R72); the source is unchanged throughout. The frame as for RUN_DIRECT (R115, R51, R89, R43). That
the two moves are a run rests on the agenda (log 1), and what is visible on `dirty` (log 8): both are the model's choice. -/
def Obligations.RunCopyIsAnExactRoundTrip : Prop :=
  ∀ (p : Platform) (s : State) (rest : List Event), RunReady p s 0x00000004#32 rest → W s * H s ≤ p.maxPixels.toNat →
    ∃ t, runOn p 2 s = .next t ∧ RunFrame s t ∧
      ∀ o, o < bytes s →
        (visible p s (s.regs.srcBase.toNat + o) →
          readByte t.mem (s.regs.dstBase.toNat + o) = readByte t.mem (s.regs.srcBase.toNat + o)) ∧
        readByte t.mem (s.regs.srcBase.toNat + o) = readByte s.mem (s.regs.srcBase.toNat + o)

/-- R51: whatever the job, the ENGINE's turn leaves every byte outside the job's destination region as it was. -/
def Obligations.EngineWritesOnlyTheDestination : Prop :=
  ∀ (p : Platform) (s : State) (j : Job), s.mem.wf = true → s.job = some j →
    ∀ a, ¬inJobDest j a → readByte (engineTurn p s).mem a = readByte s.mem a

/-- R51 and R98: where the HOST kept its duties the result depends on the job and the source bytes alone: from two states
with the same job, on one platform, whose memories agree on the source region, the ENGINE's turn leaves the same bytes in the
destination region. -/
def Obligations.ResultDependsOnlyOnJobAndSource : Prop :=
  ∀ (p : Platform) (s s' : State) (j : Job), s.mem.wf = true → s'.mem.wf = true → s.job = some j → s'.job = some j →
    j.valid p → j.race = false → j.unclean = [] →
    (∀ a, inJobSource j a ∨ inJobDest j a → memOk p a = true ∧ ordinary p a = true) →
    (∀ a, inJobSource j a → readByte s.mem a = readByte s'.mem a) →
      ∀ a, inJobDest j a → readByte (engineTurn p s).mem a = readByte (engineTurn p s').mem a

/-- R160: an unbacked byte in either region ends the run with BUS_ERROR, race or no race: BUSY and DONE are 0, and every
byte outside the destination, and every unbacked byte, is as it was. Of the registers only STATUS and OPCYC change
(R154). -/
def Obligations.UnbackedRegionEndsInBusError : Prop :=
  ∀ (p : Platform) (s : State) (j : Job) (b : Nat), s.mem.wf = true → s.job = some j → s.regs.status.done = false →
    (inJobSource j b ∨ inJobDest j b) → memOk p b = false →
      (engineTurn p s).busy = false ∧
      (engineTurn p s).regs =
        { withEnd s.regs false true .busError with opcyc := (engineTurn p s).regs.opcyc } ∧
      (engineTurn p s).regs.opcyc ≠ 0#64 ∧
      ∀ a, (¬inJobDest j a ∨ memOk p a = false) → readByte (engineTurn p s).mem a = readByte s.mem a

/-- R69: a run with the race flag set, over backed memory, still ends in DONE, and leaves every byte outside the
destination as it was; nothing is said of the bytes inside. -/
def Obligations.RacedRunStillEndsInDone : Prop :=
  ∀ (p : Platform) (s : State) (j : Job), s.mem.wf = true → s.job = some j → j.race = true →
    s.regs.status.err = false → s.regs.status.errcode = .none →
    (∀ a, inJobSource j a ∨ inJobDest j a → memOk p a = true) →
      (engineTurn p s).busy = false ∧
      (engineTurn p s).regs = { withEnd s.regs true false .none with opcyc := (engineTurn p s).regs.opcyc } ∧
      (engineTurn p s).regs.opcyc ≠ 0#64 ∧
      ∀ a, ¬inJobDest j a → readByte (engineTurn p s).mem a = readByte s.mem a

/-- R183 and R21: a write of a configuration register while BUSY reaches the register and not the running job: the
completion step writes the same memory and ends with the same STATUS. -/
def Obligations.ConfigurationWritesDoNotReachARunningJob : Prop :=
  ∀ (p : Platform) (s : State) (r : Reg) (v : Word), s.busy = true → isConfig r = true →
    regValue p r (engineTurn p (storeReg r v s)) = readBack r v ∧
    (engineTurn p (storeReg r v s)).mem = (engineTurn p s).mem ∧
    (engineTurn p (storeReg r v s)).regs.status = (engineTurn p s).regs.status ∧
    (engineTurn p (storeReg r v s)).regs.opcyc = (engineTurn p s).regs.opcyc

/-! ### The arithmetic -/

/-- R10: the primitives, each by what characterises it on the integers. -/
def Obligations.PrimitivesAreTheSpecs : Prop :=
  (∀ (a : Int) (b : Nat), 0 < b → tdiv a b = a.sign * (a.natAbs / b : Nat) ∧ tdiv a b = a.tdiv b) ∧
  (∀ (a : Int) (n : Nat), 2 ^ n * asr a n ≤ a ∧ a < 2 ^ n * (asr a n + 1)) ∧
  (∀ a : Int, ((clamp255 a).toNat : Int) = if a < 0 then 0 else if 255 < a then 255 else a) ∧
  (∀ a : Int, (a.natAbs : Int) = if a < 0 then -a else a) ∧
  (∀ a : Int, ((lo8 a).toNat : Int) = a % 256)

/-- R96: whatever the registers hold, no sum of CONV3 leaves 32 bits: the bounds of the direct sum, of one product of
the table, and of a sum of nine entries. -/
def Obligations.NoAccumulationOverflows : Prop :=
  ∀ (j : Job) (m : Memory) (planes : Planes) (x y c : Nat) (k : Fin 9) (v : Byte),
    |directAcc j m x y c| ≤ 293760 ∧
    |(v.toNat : Int) * weight j.kernel k * 2 ^ lutScale| ≤ 8355840 ∧
    |lutEntry j k v| ≤ 8355840 ∧
    |lutSum j planes c x y| ≤ 75202560

/-- R113: every ITER gives the same planes as one pass. -/
def Obligations.PassCountDoesNotMatter : Prop :=
  ∀ (j : Job) (planes : Planes) (n : Nat), 1 ≤ n → lutPasses j planes n = lutPasses j planes 1

/-- R103 items 2 and 3, R104: a negative sum gives 0 and a sum of 256*D or more gives 255; truncating or flooring the
quotient makes no difference to the byte; with D = 1 the byte is the clamped sum. -/
def Obligations.DirectRoundingIsNotObservable : Prop :=
  ∀ (acc : Int) (d : Nat), 0 < d →
    clamp255 (tdiv acc d) = clamp255 (acc / (d : Int)) ∧
    (acc < 0 → clamp255 (tdiv acc d) = 0#8) ∧
    (256 * (d : Int) ≤ acc → clamp255 (tdiv acc d) = 255#8) ∧
    clamp255 (tdiv acc 1) = clamp255 acc

/-- R103 item 6 and R118 item 5: on an image whose channel is uniform, the sum is the byte times the sum of the weights,
so the direct result is the byte itself where the weights sum to the divisor, and both results are 0 where they sum to 0
and D is 1. -/
def Obligations.UniformImages : Prop :=
  ∀ (j : Job) (m : Memory) (v : Byte) (x y c : Nat),
    (∀ x' y', x' < j.width.toNat → y' < j.height.toNat → srcByte j m x' y' c = v) → 0 < j.div.toNat →
    isInterior j.width.toNat j.height.toNat x y →
      let total := (j.kernel.toList.map fun w => w.toInt).sum
      directAcc j m x y c = v.toNat * total ∧
      (total = j.div.toNat → directByte j m x y c = v) ∧
      (total = 0 → directByte j m x y c = 0#8) ∧
      (total = 0 → j.div = 1#16 → 0 < j.iter.toNat → lutByte j m x y c = 0#8)

/-- R118 item 6: gauss on a uniform byte in LUT mode gives the byte when 3 divides it, and one less otherwise. -/
def Obligations.GaussLutOnAUniformImage : Prop :=
  ∀ (j : Job) (m : Memory) (v : Byte) (x y c : Nat), j.kernel = gauss.kernel → j.div = gauss.div → 0 < j.iter.toNat →
    (∀ x' y', x' < j.width.toNat → y' < j.height.toNat → srcByte j m x' y' c = v) →
    isInterior j.width.toNat j.height.toNat x y →
      (lutByte j m x y c).toNat = if v.toNat % 3 = 0 then v.toNat else v.toNat - 1

/-- R118 items 2 and 3: with D = 1 the LUT result is the low byte of the magnitude of the direct sum; it equals the direct
result where the sum is in 0..255; the identity kernel reproduces every interior byte. The converse of item 2 ('exactly
when') is not claimed: by R100 and R111 a sum of 511 gives 255 in both modes, and a sum of -256 gives 0 in both. -/
def Obligations.LutWithDivisorOne : Prop :=
  ∀ (j : Job) (m : Memory) (x y c : Nat), j.div = 1#16 →
    isInterior j.width.toNat j.height.toNat x y →
      lutPixel j (planarize j m) c x y = lo8 ((directAcc j m x y c).natAbs : Int) ∧
      ((0 ≤ directAcc j m x y c ∧ directAcc j m x y c ≤ 255) →
        lutPixel j (planarize j m) c x y = directByte j m x y c) ∧
      (j.kernel = #v[0, 0, 0, 0, 1, 0, 0, 0, 0] → lutPixel j (planarize j m) c x y = srcByte j m x y c)

/-! ### Registers -/

/-- R17: the block is the 256 bytes from REG_BASE, registers stand at multiples of 4, and an access that is not 32 bits
wide or not aligned gets a bus error response and has no effect on the engine. -/
def Obligations.MalformedAccessHasNoEffect : Prop :=
  (∀ (p : Platform) (s : State) (bits : Nat) (o : BitVec 8) (op : RegOp), ¬(bits = 32 ∧ o.toNat % 4 = 0) →
    regPort p bits o op s = .next { s with resp := .busError }) ∧
  (∀ (p : Platform) (s : State) (bits : Nat) (o : BitVec 8) (op : RegOp), p.wf = true →
    busAccess p bits (p.regBase + o.setWidth 32) op s = regPort p bits o op s) ∧
  (∀ r : Reg, r.offset.toNat % 4 = 0)

/-- R18: an offset the map does not name reads as zero and ignores writes; a write to a read-only register is ignored;
neither is an error. -/
def Obligations.UnnamedOffsetsReadZeroAndIgnoreWrites : Prop :=
  (∀ (p : Platform) (s : State) (o : BitVec 8), o.toNat % 4 = 0 →
    (0x54 ≤ o.toNat ∧ o.toNat ≤ 0x5C ∨ 0x70 ≤ o.toNat) →
      regPort p 32 o .read s = .next { s with resp := .word 0#32 } ∧
      ∀ v, regPort p 32 o (.write v) s = .next { s with resp := .ack }) ∧
  (∀ (p : Platform) (s : State) (v : Word) (r : Reg),
    r ∈ [Reg.id, .cap, .maxpix, .cycleLo, .cycleHi, .opcycLo, .opcycHi] →
      regPort p 32 r.offset (.write v) s = .next { s with resp := .ack })

/-- R22 to R24: the identification registers read as the spec's constants and the parameter MAX_PIXELS in every state,
and reading them changes nothing. -/
def Obligations.IdentificationRegisters : Prop :=
  ∀ (p : Platform) (s : State),
    regPort p 32 0x00#8 .read s = .next { s with resp := .word 0x434E5633#32 } ∧
    regPort p 32 0x04#8 .read s = .next { s with resp := .word 0x00000838#32 } ∧
    regPort p 32 0x08#8 .read s = .next { s with resp := .word p.maxPixels } ∧
    regPort p 32 0x0C#8 .read s = .next { s with resp := .word 0#32 }

/-- R179, with R32 to R39: a configuration register reads back what was written to it, its reserved bits as 0 and a
weight sign-extended, and no other register reads differently. -/
def Obligations.RegistersReadBack : Prop :=
  ∀ (p : Platform) (s : State) (r : Reg) (v : Word), isConfig r = true →
    regValue p r (storeReg r v s) = readBack r v ∧ ∀ r', r' ≠ r → regValue p r' (storeReg r v s) = regValue p r' s

/-- A HOST write to a configuration register at its offset completes at once and leaves everything but that register and
the bus's answer (R21, R39). -/
def Obligations.ConfigurationWriteCompletes : Prop :=
  ∀ (p : Platform) (s : State) (r : Reg) (v : Word), s.rstLow = false → isConfig r = true →
    ∃ t, regPort p 32 r.offset (.write v) s = .next t ∧ t.resp = .ack ∧ regValue p r t = readBack r v ∧
      (∀ r', r' ≠ r → regValue p r' t = regValue p r' s) ∧ t.regs.status = s.regs.status ∧
      t.job = s.job ∧ t.mem = s.mem ∧ t.cycle = s.cycle ∧ t.cycleHi = s.cycleHi ∧ t.regs.opcyc = s.regs.opcyc

/-- R31: a write of `v` to STATUS clears the flags it has 1s for, clearing ERR also clears ERRCODE, and nothing else
changes: BUSY and the reserved bits ignore it. -/
def Obligations.StatusWriteOneClears : Prop :=
  ∀ (p : Platform) (s : State) (v : Word), s.rstLow = false →
    ∃ t, regPort p 32 0x10#8 (.write v) s = .next t ∧
      t = { s with
        resp := .ack
        regs := { s.regs with
          status :=
            { done := if v[1] then false else s.regs.status.done
              err := if v[2] then false else s.regs.status.err
              ovf := if v[3] then false else s.regs.status.ovf
              errcode := if v[2] then .none else s.regs.status.errcode } } } ∧
      t.busy = s.busy

/-- The layout of STATUS (10_state.md section 4, R26 to R30, R153): every field at its bit, the codes of the errors, and
the reserved bits 0. -/
def Obligations.StatusLayout : Prop :=
  ∀ s : State,
    (statusWord s)[0] = s.busy ∧ (statusWord s)[1] = s.regs.status.done ∧ (statusWord s)[2] = s.regs.status.err ∧
    (statusWord s)[3] = s.regs.status.ovf ∧ (statusWord s).extractLsb' 4 4 = 0#4 ∧
    (statusWord s).extractLsb' 12 20 = 0#20 ∧
    ((statusWord s).extractLsb' 8 4).toNat =
      match s.regs.status.errcode with
      | .none => 0
      | .badCommand => 1
      | .unknownFilter => 2
      | .badDims => 3
      | .divZero => 4
      | .badIter => 5
      | .addrRange => 6
      | .overlap => 7
      | .tooLarge => 8
      | .busError => 9

/-- R163: the interrupt line is a pure function of the flags and their enables; so enabling a source whose flag is set
raises it at once. -/
def Obligations.InterruptLine : Prop :=
  ∀ s : State,
    (s.irq = true ↔
      (s.regs.status.done = true ∧ s.regs.irqEn.doneIe = true) ∨ (s.regs.status.err = true ∧ s.regs.irqEn.errIe = true) ∨
        (s.regs.status.ovf = true ∧ s.regs.irqEn.ovfIe = true)) ∧
    ∀ v, (storeReg .irqEn v s).irq =
      ((s.regs.status.done && v[0]) || (s.regs.status.err && v[1]) || (s.regs.status.ovf && v[2]))

/-- R165: writing 1 to each set flag that is enabled deasserts `irq` in the same step, and so does acceptance of the next
command where OVF is not an enabled set flag. -/
def Obligations.AcknowledgeDeassertsTheLine : Prop :=
  ∀ (s : State) (v : Word),
    ((s.regs.status.done = true → s.regs.irqEn.doneIe = true → v[1] = true) →
      (s.regs.status.err = true → s.regs.irqEn.errIe = true → v[2] = true) →
      (s.regs.status.ovf = true → s.regs.irqEn.ovfIe = true → v[3] = true) → (acknowledge v s).irq = false) ∧
    (¬(s.regs.status.ovf = true ∧ s.regs.irqEn.ovfIe = true) → (acceptCommand s).irq = false)

/-! ### Counters -/

/-- R41, R42 and R148: CYCLE_LO then CYCLE_HI, whatever time passes between them, give the two halves of one value of
CYCLE, and neither read changes another register. -/
def Obligations.SnapIsOneReadingOfCycle : Prop :=
  ∀ (p : Platform) (s : State) (rest : List Event), p.wf = true → s.rstLow = false →
    s.agenda = ScriptLine.snap.moves p ++ rest →
      ∃ t u lo hi, runOn p 1 s = .next t ∧ runOn p 2 s = .next u ∧ t.resp = .word lo ∧ u.resp = .word hi ∧
        hi ++ lo = t.cycle ∧ u.cycleHi = hi ∧ u.regs = s.regs ∧ u.job = s.job ∧ u.mem = s.mem ∧ u.agenda = rest

/-- R20: a read of a register other than CYCLE_LO returns its value and changes nothing of the engine; a read of CYCLE_LO
changes the shadow alone. -/
def Obligations.ReadsHaveNoSideEffectButCycleLo : Prop :=
  ∀ (p : Platform) (s : State) (r : Reg),
    regPort p 32 r.offset .read s =
      .next (if r = .cycleLo then
          { s with resp := .word (regValue p r s), cycleHi := s.cycle.extractLsb' 32 32 }
        else { s with resp := .word (regValue p r s) })

/-- R40: with `rst_n` high and no power-on reset, a step only counts CYCLE on, modulo 2^64, by the cycles that pass before
it and one more at most, where a run ends that had taken none. The cycles that pass are a free value (log 5). -/
def Obligations.CycleOnlyCountsUp : Prop :=
  ∀ (p : Platform) (s t : State), s.rstLow = false → s.agenda.head? ≠ some .rstAssert → stepOn p s = .next t →
    t.cycle = s.cycle + Config.drawCycles s.draws ∨
      (s.busy = true ∧ t.busy = false ∧ t.cycle = s.cycle + Config.drawCycles s.draws + 1)

/-- R43: OPCYC changes only at the end of a run, where it is the cycles since acceptance and at least 1, and at reset. -/
def Obligations.OpcycChangesOnlyAtTheEndOfARun : Prop :=
  ∀ (p : Platform) (s t : State), stepOn p s = .next t →
    t.regs.opcyc = s.regs.opcyc ∨ (t.regs = RegBlock.reset ∧ t.regs.opcyc = 0#64) ∨
      ∃ j, s.job = some j ∧ t.job = none ∧ (t.regs.status.done = true ∨ t.regs.status.err = true) ∧
        t.regs.opcyc = t.cycle - j.startCycle ∧ 1 ≤ t.regs.opcyc.toNat

/-! ### HOST memory accesses -/

/-- R68, first and last case, and R11: outside a run's destination region, a HOST read of backed ordinary memory (of which
no stale copy is cached) returns the byte and changes nothing; a write of backed memory changes that byte alone, and sets
the race flag exactly where it falls in a region of the run in progress (R45). -/
def Obligations.HostMemoryAccess : Prop :=
  ∀ (p : Platform) (s : State) (a : Word) (b : Byte), s.mem.wf = true → memOk p a.toNat = true →
    (Sys2Proof.Machine.ordinary p a.toNat = true → (p.coherent = true ∨ a.toNat ∉ s.stale) →
      (∀ j, s.job = some j → ¬inJobDest j a.toNat) →
        hostRead p a s = { s with resp := .byte (readByte s.mem a.toNat) }) ∧
    (∀ x, readByte (hostWrite p a b s).mem x = if x = a.toNat then b else readByte s.mem x) ∧
    (hostWrite p a b s).regs = s.regs ∧ (hostWrite p a b s).busy = s.busy ∧
    (∀ j, s.job = some j → ∃ j', (hostWrite p a b s).job = some j' ∧
      (j'.race = true ↔ j.race = true ∨ inJobSource j a.toNat ∨ inJobDest j a.toNat) ∧ { j' with race := j.race } = j)

/-- A HOST access of an unbacked address gets a bus error response and writes nothing. This is the model's reading of
00_scope.md R11 (log 6). -/
def Obligations.UnbackedHostAccess : Prop :=
  ∀ (p : Platform) (s : State) (a : Word) (b : Byte), memOk p a.toNat = false →
    hostRead p a s = { s with resp := .busError } ∧ (hostWrite p a b s).mem = s.mem ∧ (hostWrite p a b s).resp = .busError

/-- R72's duties, as the model keeps track of them (log 8): after the HOST writes back the source region a run is not
marked unclean, and after it invalidates a range, a read there returns what memory holds. -/
def Obligations.CacheDutiesRestoreVisibility : Prop :=
  (∀ (p : Platform) (s : State) (mode : RunMode) (r : Region), (∀ a, inSource s a → r.base ≤ a ∧ a < r.base + r.size) →
    (snapshot p mode (cleanCache r s)).unclean = []) ∧
  (∀ (p : Platform) (s : State) (r : Region) (a : Word), s.busy = false → memOk p a.toNat = true →
    Sys2Proof.Machine.ordinary p a.toNat = true → p.coherent = false →
    r.base ≤ a.toNat → a.toNat < r.base + r.size →
      (hostRead p a (invalidateCache p r s)).resp = .byte (readByte (invalidateCache p r s).mem a.toNat)) ∧
  (∀ (p : Platform) (s : State) (r : Region) (a : Nat), s.mem.wf = true → a ∉ s.dirty →
    readByte (invalidateCache p r s).mem a = readByte s.mem a)

/-! ### Scripts -/

/-- R82: `setk` is nine writes that leave weight `k` as the low 8 bits of the two's complement of `w_k`, and change no
other register. -/
def Obligations.SetkLoadsTheKernel : Prop :=
  ∀ (p : Platform) (s : State) (weights : Vector Int 9) (rest : List Event), p.wf = true → s.rstLow = false →
    s.agenda = (ScriptLine.setk weights).moves p ++ rest →
      ∃ t, runOn p 9 s = .next t ∧ t.agenda = rest ∧
        t.regs = { s.regs with kernel := weights.map (fun w => BitVec.ofInt 8 w) } ∧
        t.job = s.job ∧ t.mem = s.mem ∧ t.cycleHi = s.cycleHi

/-! ### The whole machine -/

/-- R176 and R177: the reset state reads, register by register, as the table of reset values; the engine is idle and `irq`
is low. The last clause, that memory lists nothing, is the model's choice and no rule of the spec (log 3). -/
def Obligations.ResetValues : Prop :=
  ∀ p : Platform,
  let s := State.reset
  regValue p .id s = 0x434E5633#32 ∧ regValue p .cap s = 0x00000838#32 ∧ regValue p .maxpix s = p.maxPixels ∧
  regValue p .cmd s = 0#32 ∧ regValue p .status s = 0#32 ∧ regValue p .irqEn s = 0#32 ∧ regValue p .width s = 0#32 ∧ regValue p .height s = 0#32 ∧
  regValue p .iter s = 1#32 ∧ regValue p .srcBase s = 0#32 ∧ regValue p .dstBase s = 0#32 ∧ regValue p .div s = 0#32 ∧
  (∀ n, regValue p (.k n) s = 0#32) ∧ regValue p .cycleLo s = 0#32 ∧ s.cycle = 0#64 ∧ regValue p .cycleHi s = 0#32 ∧
  regValue p .opcycLo s = 0#32 ∧ regValue p .opcycHi s = 0#32 ∧ s.job = none ∧ s.busy = false ∧ s.irq = false ∧
  s.mem = []

/-- R175: power-on reset, from any state: the reset values and CYCLE = 0, a run in progress aborted as by SOFT_RESET; the
engine stays in reset until `rst_n` goes high, whatever moves come; after release it is idle. It and SOFT_RESET differ only
in CYCLE. -/
def Obligations.PowerOnReset : Prop :=
  (∀ (p : Platform) (s : State), (powerOnReset p s).atReset ∧ (powerOnReset p s).rstLow = true ∧
    execOn p .softReset s = .next { powerOnReset p s with cycle := s.cycle, rstLow := s.rstLow }) ∧
  (∀ (p : Platform) (s t : State), s.rstLow = true → s.atReset → stepOn p s = .next t →
    t.atReset ∧ (t.rstLow = true ∨ s.agenda.head? = some .rstRelease)) ∧
  (∀ (p : Platform) (s : State) (rest : List Event), s.agenda = .rstAssert :: .rstRelease :: rest →
    ∃ t, runOn p 2 s = .next t ∧ t.atReset ∧ t.rstLow = false)

/-- R152: an error arises at exactly two points: inside a CMD write while idle, with a code from BAD_COMMAND to TOO_LARGE,
or at the completion step, with BUS_ERROR. -/
def Obligations.ErrorsAriseAtTwoPoints : Prop :=
  ∀ (p : Platform) (s t : State), stepOn p s = .next t → t.regs.status.err = true →
    (s.regs.status.err = true ∧ t.regs.status.errcode = s.regs.status.errcode) ∨
    (s.busy = false ∧ t.regs.status.errcode ≠ .none ∧ t.regs.status.errcode ≠ .busError ∧
      ∃ w, nextIsWrite p s .cmd w) ∨
    (s.busy = true ∧ t.busy = false ∧ t.regs.status.errcode = .busError ∧
      (s.agenda = [] ∨ s.agenda.head? = some .engine))

/-- R29: OVF is set only by a CMD write that arrives while BUSY, and cleared only by a HOST write of 1 to bit 3 of STATUS
or by a reset. -/
def Obligations.OverrunIsSticky : Prop :=
  ∀ (p : Platform) (s t : State), stepOn p s = .next t →
    (s.regs.status.ovf = false → t.regs.status.ovf = true →
      s.busy = true ∧ ∃ w, w ≠ 0x00000005#32 ∧ nextIsWrite p s .cmd w) ∧
    (s.regs.status.ovf = true → t.regs.status.ovf = false →
      t.regs = RegBlock.reset ∨ ∃ v : Word, v[3] = true ∧ nextIsWrite p s .status v)

/-- R26: BUSY rises only by a CMD write of a run command while idle, and falls only at the ENGINE's turn, by SOFT_RESET,
or by power-on reset. -/
def Obligations.BusyRisesOnlyAtAcceptance : Prop :=
  ∀ (p : Platform) (s t : State), stepOn p s = .next t →
    (s.busy = false → t.busy = true →
      ∃ w mode, encode (runInstr mode) = w ∧ nextIsWrite p s .cmd w) ∧
    (s.busy = true → t.busy = false →
      s.agenda = [] ∨ s.agenda.head? = some .engine ∨ s.agenda.head? = some .rstAssert ∨
        nextIsWrite p s .cmd 0x00000005#32)

/-- R51 and R146 over the whole machine: memory changes only by a HOST memory write, at the ENGINE's turn while BUSY, by a
reset that aborts a run, or, on a platform with COHERENT false, by a HOST that throws away its own cached writes (log 8);
no other move touches a byte. -/
def Obligations.OnlyTheseMovesChangeMemory : Prop :=
  ∀ (p : Platform) (s t : State), stepOn p s = .next t → t.mem ≠ s.mem →
    (∃ a b, s.agenda.head? = some (.memWrite a b)) ∨
    (s.busy = true ∧ t.busy = false) ∨
    (p.coherent = false ∧ ∃ r, s.agenda.head? = some (.cacheInvalidate r))

/-- 93 U25 and R150: the machine stops only in the cases the spec says the model has no move for: a change of `mem_ok` and
a clock other than F_CLK; no command, no register access and no data ends a run, and nothing is refused. That a change of
`mem_ok` while idle is no move either is the model's choice (log 13). -/
def Obligations.MachineStopsOnlyOutsideTheModel : Prop :=
  ∀ (p : Platform) (s : State),
    (∃ t, stepOn p s = .next t) ∨
    (s.agenda.head? = some .remap ∧ stepOn p s = .fault .memOkChanged) ∨
    ((∃ hz, hz ≠ p.fClk ∧ s.agenda.head? = some (.clock hz)) ∧ stepOn p s = .fault .clockNotFclk)

/-- R93, in the model's form: a run in progress ends, or is aborted, after finitely many steps, at most as many as the moves
of the agenda can take, and one. That the ENGINE moves on an empty agenda is the model's choice (log 1), and so is that it
moves after the last failing poll of a `wait` (log 14). (Or the machine stops in a case outside the model, 93 U25.) -/
def Obligations.EveryRunEnds : Prop :=
  ∀ (p : Platform) (s : State), s.busy = true →
    ∃ n, n ≤ agendaWeight s.agenda + 1 ∧
      ((∃ t, runOn p n s = .next t ∧ t.busy = false) ∨ ∃ f, runOn p n s = .fault f)

/-- Every step keeps the invariant of CONV3: canonical memory, STATUS consistent (R28, R30), BUSY with DONE and ERR clear
(R86), a validated job (R158), and the engine at its reset values while `rst_n` is low (R175). -/
def Obligations.InvariantKeptByEveryStep : Prop :=
  (∀ s t : State, s.Inv Config.platform → step s = .next t → t.Inv Config.platform) ∧
  ∀ (p : Platform) (s t : State), s.Inv p → stepOn p s = .next t → t.Inv p

/-- The invariant holds at reset on every platform, and the machine's own platform is well formed: REG_BASE is 256-byte
aligned and MAX_PIXELS is at least 9, as R8 says, and F_CLK is not 0, which R8 does not say: that clause is the model's
choice (log 2, PRESUMED). -/
def Obligations.InvariantHoldsAtReset : Prop := (∀ p : Platform, State.reset.Inv p) ∧ Config.platform.wf = true

/-- 00_scope.md R6: the configuration is a parameter of the step relation, not state. `step`, `exec` and `core` are those of
one platform, of which nothing is known but that it is well formed (log 2); and on every platform a step whose next move is a CMD write
delivers the word and runs the command it decodes to (`StepRunsTheDecodedCommand`). -/
def Obligations.ConfigurationIsAParameter : Prop :=
  Sys2Proof.core = coreOn Config.platform ∧
  (∀ (i : Instr) (s : State), exec i s = execOn Config.platform i s) ∧
  ∀ (p : Platform) (s : State) (w : Word) (m : Event) (rest : List Event), s.rstLow = false → s.agenda = m :: rest →
    (m = cmdWrite w ∨ ∃ a, m = .bus 32 a (.write w) ∧ blockOffset p a = some 0x0C#8) →
      let arrived :=
        { s with
          agenda := rest
          resp := .ack
          cycle := s.cycle + Config.drawCycles s.draws
          draws := s.draws + 1 }
      stepOn p s = deliver p w arrived ∧ ∀ i, decode w = .ok i → stepOn p s = execOn p i arrived
end

