-- ==== Sys2Proof/Laws/State.lean ====
section
/-! SUPPORT. One lemma per field per update: what each shared operation leaves as it was, and what it sets. -/

namespace Sys2Proof.Machine

variable (s : State)

/-! ### tick -/

@[simp] theorem tick_regs : (tick s).regs = s.regs := by unfold tick; split <;> rfl
@[simp] theorem tick_cycleHi : (tick s).cycleHi = s.cycleHi := by unfold tick; split <;> rfl
@[simp] theorem tick_job : (tick s).job = s.job := by unfold tick; split <;> rfl
@[simp] theorem tick_mem : (tick s).mem = s.mem := by unfold tick; split <;> rfl
@[simp] theorem tick_rstLow : (tick s).rstLow = s.rstLow := by unfold tick; split <;> rfl
@[simp] theorem tick_dirty : (tick s).dirty = s.dirty := by unfold tick; split <;> rfl
@[simp] theorem tick_stale : (tick s).stale = s.stale := by unfold tick; split <;> rfl
@[simp] theorem tick_agenda : (tick s).agenda = s.agenda := by unfold tick; split <;> rfl
@[simp] theorem tick_resp : (tick s).resp = s.resp := by unfold tick; split <;> rfl

/-! ### scribble -/

@[simp] theorem scribble_regs (r : Region) (which : Nat → Bool) : (scribble r which s).regs = s.regs := rfl
@[simp] theorem scribble_cycle (r : Region) (which : Nat → Bool) : (scribble r which s).cycle = s.cycle := rfl
@[simp] theorem scribble_cycleHi (r : Region) (which : Nat → Bool) : (scribble r which s).cycleHi = s.cycleHi := rfl
@[simp] theorem scribble_job (r : Region) (which : Nat → Bool) : (scribble r which s).job = s.job := rfl
@[simp] theorem scribble_mem (r : Region) (which : Nat → Bool) : (scribble r which s).mem = fill s.mem r.base which (fun i => Config.drawByte (s.draws + i)) r.size := rfl
@[simp] theorem scribble_rstLow (r : Region) (which : Nat → Bool) : (scribble r which s).rstLow = s.rstLow := rfl
@[simp] theorem scribble_dirty (r : Region) (which : Nat → Bool) : (scribble r which s).dirty = s.dirty := rfl
@[simp] theorem scribble_stale (r : Region) (which : Nat → Bool) : (scribble r which s).stale = s.stale := rfl
@[simp] theorem scribble_agenda (r : Region) (which : Nat → Bool) : (scribble r which s).agenda = s.agenda := rfl
@[simp] theorem scribble_resp (r : Region) (which : Nat → Bool) : (scribble r which s).resp = s.resp := rfl
@[simp] theorem scribble_draws (r : Region) (which : Nat → Bool) : (scribble r which s).draws = s.draws + r.size := rfl

/-! ### noteEngineWrites -/

@[simp] theorem noteEngineWrites_regs (p : Platform) (r : Region) : (noteEngineWrites p r s).regs = s.regs := by unfold noteEngineWrites; split <;> rfl
@[simp] theorem noteEngineWrites_cycle (p : Platform) (r : Region) : (noteEngineWrites p r s).cycle = s.cycle := by unfold noteEngineWrites; split <;> rfl
@[simp] theorem noteEngineWrites_cycleHi (p : Platform) (r : Region) : (noteEngineWrites p r s).cycleHi = s.cycleHi := by unfold noteEngineWrites; split <;> rfl
@[simp] theorem noteEngineWrites_job (p : Platform) (r : Region) : (noteEngineWrites p r s).job = s.job := by unfold noteEngineWrites; split <;> rfl
@[simp] theorem noteEngineWrites_mem (p : Platform) (r : Region) : (noteEngineWrites p r s).mem = s.mem := by unfold noteEngineWrites; split <;> rfl
@[simp] theorem noteEngineWrites_rstLow (p : Platform) (r : Region) : (noteEngineWrites p r s).rstLow = s.rstLow := by unfold noteEngineWrites; split <;> rfl
@[simp] theorem noteEngineWrites_agenda (p : Platform) (r : Region) : (noteEngineWrites p r s).agenda = s.agenda := by unfold noteEngineWrites; split <;> rfl
@[simp] theorem noteEngineWrites_resp (p : Platform) (r : Region) : (noteEngineWrites p r s).resp = s.resp := by unfold noteEngineWrites; split <;> rfl
@[simp] theorem noteEngineWrites_draws (p : Platform) (r : Region) : (noteEngineWrites p r s).draws = s.draws := by unfold noteEngineWrites; split <;> rfl

/-! ### scribbleDest -/

@[simp] theorem scribbleDest_regs (p : Platform) (j : Job) : (scribbleDest p j s).regs = s.regs := by simp [scribbleDest]
@[simp] theorem scribbleDest_cycle (p : Platform) (j : Job) : (scribbleDest p j s).cycle = s.cycle := by simp [scribbleDest]
@[simp] theorem scribbleDest_cycleHi (p : Platform) (j : Job) : (scribbleDest p j s).cycleHi = s.cycleHi := by simp [scribbleDest]
@[simp] theorem scribbleDest_job (p : Platform) (j : Job) : (scribbleDest p j s).job = s.job := by simp [scribbleDest]
@[simp] theorem scribbleDest_mem (p : Platform) (j : Job) : (scribbleDest p j s).mem = fill s.mem j.dest.base (memOk p) (fun i => Config.drawByte (s.draws + i)) j.dest.size := by simp [scribbleDest]
@[simp] theorem scribbleDest_rstLow (p : Platform) (j : Job) : (scribbleDest p j s).rstLow = s.rstLow := by simp [scribbleDest]
@[simp] theorem scribbleDest_agenda (p : Platform) (j : Job) : (scribbleDest p j s).agenda = s.agenda := by simp [scribbleDest]
@[simp] theorem scribbleDest_resp (p : Platform) (j : Job) : (scribbleDest p j s).resp = s.resp := by simp [scribbleDest]
@[simp] theorem scribbleDest_draws (p : Platform) (j : Job) : (scribbleDest p j s).draws = s.draws + j.dest.size := by simp [scribbleDest]

/-! ### writeResult -/

@[simp] theorem writeResult_regs (p : Platform) (j : Job) : (writeResult p j s).regs = s.regs := by simp [writeResult]
@[simp] theorem writeResult_cycle (p : Platform) (j : Job) : (writeResult p j s).cycle = s.cycle := by simp [writeResult]
@[simp] theorem writeResult_cycleHi (p : Platform) (j : Job) : (writeResult p j s).cycleHi = s.cycleHi := by simp [writeResult]
@[simp] theorem writeResult_job (p : Platform) (j : Job) : (writeResult p j s).job = s.job := by simp [writeResult]
@[simp] theorem writeResult_mem (p : Platform) (j : Job) : (writeResult p j s).mem = fill s.mem j.dest.base (fun _ => true) (resultAt j (sourceView j s)) j.dest.size := by simp [writeResult]
@[simp] theorem writeResult_rstLow (p : Platform) (j : Job) : (writeResult p j s).rstLow = s.rstLow := by simp [writeResult]
@[simp] theorem writeResult_agenda (p : Platform) (j : Job) : (writeResult p j s).agenda = s.agenda := by simp [writeResult]
@[simp] theorem writeResult_resp (p : Platform) (j : Job) : (writeResult p j s).resp = s.resp := by simp [writeResult]
@[simp] theorem writeResult_draws (p : Platform) (j : Job) : (writeResult p j s).draws = s.draws + j.source.size := by simp [writeResult]

/-! ### acceptCommand -/

@[simp] theorem acceptCommand_regs : (acceptCommand s).regs = { s.regs with status := { s.regs.status with done := false, err := false, errcode := .none } } := rfl
@[simp] theorem acceptCommand_cycle : (acceptCommand s).cycle = s.cycle := rfl
@[simp] theorem acceptCommand_cycleHi : (acceptCommand s).cycleHi = s.cycleHi := rfl
@[simp] theorem acceptCommand_job : (acceptCommand s).job = s.job := rfl
@[simp] theorem acceptCommand_mem : (acceptCommand s).mem = s.mem := rfl
@[simp] theorem acceptCommand_rstLow : (acceptCommand s).rstLow = s.rstLow := rfl
@[simp] theorem acceptCommand_dirty : (acceptCommand s).dirty = s.dirty := rfl
@[simp] theorem acceptCommand_stale : (acceptCommand s).stale = s.stale := rfl
@[simp] theorem acceptCommand_agenda : (acceptCommand s).agenda = s.agenda := rfl
@[simp] theorem acceptCommand_resp : (acceptCommand s).resp = s.resp := rfl
@[simp] theorem acceptCommand_draws : (acceptCommand s).draws = s.draws := rfl

/-! ### dropCommand -/

@[simp] theorem dropCommand_regs : (dropCommand s).regs = { s.regs with status := { s.regs.status with ovf := true } } := rfl
@[simp] theorem dropCommand_cycle : (dropCommand s).cycle = s.cycle := rfl
@[simp] theorem dropCommand_cycleHi : (dropCommand s).cycleHi = s.cycleHi := rfl
@[simp] theorem dropCommand_job : (dropCommand s).job = s.job := rfl
@[simp] theorem dropCommand_mem : (dropCommand s).mem = s.mem := rfl
@[simp] theorem dropCommand_rstLow : (dropCommand s).rstLow = s.rstLow := rfl
@[simp] theorem dropCommand_dirty : (dropCommand s).dirty = s.dirty := rfl
@[simp] theorem dropCommand_stale : (dropCommand s).stale = s.stale := rfl
@[simp] theorem dropCommand_agenda : (dropCommand s).agenda = s.agenda := rfl
@[simp] theorem dropCommand_resp : (dropCommand s).resp = s.resp := rfl
@[simp] theorem dropCommand_draws : (dropCommand s).draws = s.draws := rfl

/-! ### endRun -/

@[simp] theorem endRun_cycleHi : (endRun s).cycleHi = s.cycleHi := by unfold endRun; split <;> rfl
@[simp] theorem endRun_job : (endRun s).job = none := by unfold endRun; split <;> first | rfl | assumption
@[simp] theorem endRun_mem : (endRun s).mem = s.mem := by unfold endRun; split <;> rfl
@[simp] theorem endRun_rstLow : (endRun s).rstLow = s.rstLow := by unfold endRun; split <;> rfl
@[simp] theorem endRun_dirty : (endRun s).dirty = s.dirty := by unfold endRun; split <;> rfl
@[simp] theorem endRun_stale : (endRun s).stale = s.stale := by unfold endRun; split <;> rfl
@[simp] theorem endRun_agenda : (endRun s).agenda = s.agenda := by unfold endRun; split <;> rfl
@[simp] theorem endRun_resp : (endRun s).resp = s.resp := by unfold endRun; split <;> rfl
@[simp] theorem endRun_draws : (endRun s).draws = s.draws := by unfold endRun; split <;> rfl

/-! ### complete -/

@[simp] theorem complete_cycleHi : (complete s).cycleHi = s.cycleHi := by simp [complete]
@[simp] theorem complete_job : (complete s).job = none := by simp [complete]
@[simp] theorem complete_mem : (complete s).mem = s.mem := by simp [complete]
@[simp] theorem complete_rstLow : (complete s).rstLow = s.rstLow := by simp [complete]
@[simp] theorem complete_dirty : (complete s).dirty = s.dirty := by simp [complete]
@[simp] theorem complete_stale : (complete s).stale = s.stale := by simp [complete]
@[simp] theorem complete_agenda : (complete s).agenda = s.agenda := by simp [complete]
@[simp] theorem complete_resp : (complete s).resp = s.resp := by simp [complete]
@[simp] theorem complete_draws : (complete s).draws = s.draws := by simp [complete]

/-! ### raiseError -/

@[simp] theorem raiseError_cycleHi (code : ErrCode) : (raiseError code s).cycleHi = s.cycleHi := by simp [raiseError]
@[simp] theorem raiseError_job (code : ErrCode) : (raiseError code s).job = none := by simp [raiseError]
@[simp] theorem raiseError_mem (code : ErrCode) : (raiseError code s).mem = s.mem := by simp [raiseError]
@[simp] theorem raiseError_rstLow (code : ErrCode) : (raiseError code s).rstLow = s.rstLow := by simp [raiseError]
@[simp] theorem raiseError_dirty (code : ErrCode) : (raiseError code s).dirty = s.dirty := by simp [raiseError]
@[simp] theorem raiseError_stale (code : ErrCode) : (raiseError code s).stale = s.stale := by simp [raiseError]
@[simp] theorem raiseError_agenda (code : ErrCode) : (raiseError code s).agenda = s.agenda := by simp [raiseError]
@[simp] theorem raiseError_resp (code : ErrCode) : (raiseError code s).resp = s.resp := by simp [raiseError]
@[simp] theorem raiseError_draws (code : ErrCode) : (raiseError code s).draws = s.draws := by simp [raiseError]

/-! ### acknowledge -/

@[simp] theorem acknowledge_cycle (v : Word) : (acknowledge v s).cycle = s.cycle := rfl
@[simp] theorem acknowledge_cycleHi (v : Word) : (acknowledge v s).cycleHi = s.cycleHi := rfl
@[simp] theorem acknowledge_job (v : Word) : (acknowledge v s).job = s.job := rfl
@[simp] theorem acknowledge_mem (v : Word) : (acknowledge v s).mem = s.mem := rfl
@[simp] theorem acknowledge_rstLow (v : Word) : (acknowledge v s).rstLow = s.rstLow := rfl
@[simp] theorem acknowledge_dirty (v : Word) : (acknowledge v s).dirty = s.dirty := rfl
@[simp] theorem acknowledge_stale (v : Word) : (acknowledge v s).stale = s.stale := rfl
@[simp] theorem acknowledge_agenda (v : Word) : (acknowledge v s).agenda = s.agenda := rfl
@[simp] theorem acknowledge_resp (v : Word) : (acknowledge v s).resp = s.resp := rfl
@[simp] theorem acknowledge_draws (v : Word) : (acknowledge v s).draws = s.draws := rfl

/-! ### resetEngine -/

@[simp] theorem resetEngine_regs : (resetEngine s).regs = RegBlock.reset := rfl
@[simp] theorem resetEngine_cycle : (resetEngine s).cycle = s.cycle := rfl
@[simp] theorem resetEngine_cycleHi : (resetEngine s).cycleHi = 0#32 := rfl
@[simp] theorem resetEngine_job : (resetEngine s).job = none := rfl
@[simp] theorem resetEngine_mem : (resetEngine s).mem = s.mem := rfl
@[simp] theorem resetEngine_rstLow : (resetEngine s).rstLow = s.rstLow := rfl
@[simp] theorem resetEngine_dirty : (resetEngine s).dirty = s.dirty := rfl
@[simp] theorem resetEngine_stale : (resetEngine s).stale = s.stale := rfl
@[simp] theorem resetEngine_agenda : (resetEngine s).agenda = s.agenda := rfl
@[simp] theorem resetEngine_resp : (resetEngine s).resp = s.resp := rfl
@[simp] theorem resetEngine_draws : (resetEngine s).draws = s.draws := rfl

/-! ### abortRun -/

@[simp] theorem abortRun_regs (p : Platform) : (abortRun p s).regs = s.regs := by unfold abortRun; split <;> simp
@[simp] theorem abortRun_cycle (p : Platform) : (abortRun p s).cycle = s.cycle := by unfold abortRun; split <;> simp
@[simp] theorem abortRun_cycleHi (p : Platform) : (abortRun p s).cycleHi = s.cycleHi := by unfold abortRun; split <;> simp
@[simp] theorem abortRun_job (p : Platform) : (abortRun p s).job = none := by unfold abortRun; split <;> first | rfl | assumption
@[simp] theorem abortRun_rstLow (p : Platform) : (abortRun p s).rstLow = s.rstLow := by unfold abortRun; split <;> simp
@[simp] theorem abortRun_agenda (p : Platform) : (abortRun p s).agenda = s.agenda := by unfold abortRun; split <;> simp
@[simp] theorem abortRun_resp (p : Platform) : (abortRun p s).resp = s.resp := by unfold abortRun; split <;> simp

/-! ### powerOnReset -/

@[simp] theorem powerOnReset_regs (p : Platform) : (powerOnReset p s).regs = RegBlock.reset := rfl
@[simp] theorem powerOnReset_cycle (p : Platform) : (powerOnReset p s).cycle = 0#64 := rfl
@[simp] theorem powerOnReset_cycleHi (p : Platform) : (powerOnReset p s).cycleHi = 0#32 := rfl
@[simp] theorem powerOnReset_job (p : Platform) : (powerOnReset p s).job = none := rfl
@[simp] theorem powerOnReset_mem (p : Platform) : (powerOnReset p s).mem = (abortRun p s).mem := rfl
@[simp] theorem powerOnReset_rstLow (p : Platform) : (powerOnReset p s).rstLow = true := rfl
@[simp] theorem powerOnReset_agenda (p : Platform) : (powerOnReset p s).agenda = s.agenda := by simp [powerOnReset]
@[simp] theorem powerOnReset_resp (p : Platform) : (powerOnReset p s).resp = s.resp := by simp [powerOnReset]

/-! ### loadKernel -/

@[simp] theorem loadKernel_regs (p : Preset) : (loadKernel p s).regs = { s.regs with kernel := p.kernel, div := p.div } := rfl
@[simp] theorem loadKernel_cycle (p : Preset) : (loadKernel p s).cycle = s.cycle := rfl
@[simp] theorem loadKernel_cycleHi (p : Preset) : (loadKernel p s).cycleHi = s.cycleHi := rfl
@[simp] theorem loadKernel_job (p : Preset) : (loadKernel p s).job = s.job := rfl
@[simp] theorem loadKernel_mem (p : Preset) : (loadKernel p s).mem = s.mem := rfl
@[simp] theorem loadKernel_rstLow (p : Preset) : (loadKernel p s).rstLow = s.rstLow := rfl
@[simp] theorem loadKernel_dirty (p : Preset) : (loadKernel p s).dirty = s.dirty := rfl
@[simp] theorem loadKernel_stale (p : Preset) : (loadKernel p s).stale = s.stale := rfl
@[simp] theorem loadKernel_agenda (p : Preset) : (loadKernel p s).agenda = s.agenda := rfl
@[simp] theorem loadKernel_resp (p : Preset) : (loadKernel p s).resp = s.resp := rfl
@[simp] theorem loadKernel_draws (p : Preset) : (loadKernel p s).draws = s.draws := rfl

/-! ### answer -/

@[simp] theorem answer_regs (a : Response) : (answer a s).regs = s.regs := rfl
@[simp] theorem answer_cycle (a : Response) : (answer a s).cycle = s.cycle := rfl
@[simp] theorem answer_cycleHi (a : Response) : (answer a s).cycleHi = s.cycleHi := rfl
@[simp] theorem answer_job (a : Response) : (answer a s).job = s.job := rfl
@[simp] theorem answer_mem (a : Response) : (answer a s).mem = s.mem := rfl
@[simp] theorem answer_rstLow (a : Response) : (answer a s).rstLow = s.rstLow := rfl
@[simp] theorem answer_dirty (a : Response) : (answer a s).dirty = s.dirty := rfl
@[simp] theorem answer_stale (a : Response) : (answer a s).stale = s.stale := rfl
@[simp] theorem answer_agenda (a : Response) : (answer a s).agenda = s.agenda := rfl
@[simp] theorem answer_resp (a : Response) : (answer a s).resp = a := rfl
@[simp] theorem answer_draws (a : Response) : (answer a s).draws = s.draws := rfl

/-! ### storeReg -/

@[simp] theorem storeReg_cycle (r : Reg) (v : Word) : (storeReg r v s).cycle = s.cycle := by cases r <;> rfl
@[simp] theorem storeReg_cycleHi (r : Reg) (v : Word) : (storeReg r v s).cycleHi = s.cycleHi := by cases r <;> rfl
@[simp] theorem storeReg_job (r : Reg) (v : Word) : (storeReg r v s).job = s.job := by cases r <;> rfl
@[simp] theorem storeReg_mem (r : Reg) (v : Word) : (storeReg r v s).mem = s.mem := by cases r <;> rfl
@[simp] theorem storeReg_rstLow (r : Reg) (v : Word) : (storeReg r v s).rstLow = s.rstLow := by cases r <;> rfl
@[simp] theorem storeReg_dirty (r : Reg) (v : Word) : (storeReg r v s).dirty = s.dirty := by cases r <;> rfl
@[simp] theorem storeReg_stale (r : Reg) (v : Word) : (storeReg r v s).stale = s.stale := by cases r <;> rfl
@[simp] theorem storeReg_agenda (r : Reg) (v : Word) : (storeReg r v s).agenda = s.agenda := by cases r <;> rfl
@[simp] theorem storeReg_resp (r : Reg) (v : Word) : (storeReg r v s).resp = s.resp := by cases r <;> rfl
@[simp] theorem storeReg_draws (r : Reg) (v : Word) : (storeReg r v s).draws = s.draws := by cases r <;> rfl

/-! ### afterRead -/

@[simp] theorem afterRead_regs (r : Reg) : (afterRead r s).regs = s.regs := by cases r <;> rfl
@[simp] theorem afterRead_cycle (r : Reg) : (afterRead r s).cycle = s.cycle := by cases r <;> rfl
@[simp] theorem afterRead_job (r : Reg) : (afterRead r s).job = s.job := by cases r <;> rfl
@[simp] theorem afterRead_mem (r : Reg) : (afterRead r s).mem = s.mem := by cases r <;> rfl
@[simp] theorem afterRead_rstLow (r : Reg) : (afterRead r s).rstLow = s.rstLow := by cases r <;> rfl
@[simp] theorem afterRead_dirty (r : Reg) : (afterRead r s).dirty = s.dirty := by cases r <;> rfl
@[simp] theorem afterRead_stale (r : Reg) : (afterRead r s).stale = s.stale := by cases r <;> rfl
@[simp] theorem afterRead_agenda (r : Reg) : (afterRead r s).agenda = s.agenda := by cases r <;> rfl
@[simp] theorem afterRead_resp (r : Reg) : (afterRead r s).resp = s.resp := by cases r <;> rfl
@[simp] theorem afterRead_draws (r : Reg) : (afterRead r s).draws = s.draws := by cases r <;> rfl

/-! ### noteRace -/

@[simp] theorem noteRace_regs (a : Nat) : (noteRace a s).regs = s.regs := by unfold noteRace; split <;> rfl
@[simp] theorem noteRace_cycle (a : Nat) : (noteRace a s).cycle = s.cycle := by unfold noteRace; split <;> rfl
@[simp] theorem noteRace_cycleHi (a : Nat) : (noteRace a s).cycleHi = s.cycleHi := by unfold noteRace; split <;> rfl
@[simp] theorem noteRace_mem (a : Nat) : (noteRace a s).mem = s.mem := by unfold noteRace; split <;> rfl
@[simp] theorem noteRace_rstLow (a : Nat) : (noteRace a s).rstLow = s.rstLow := by unfold noteRace; split <;> rfl
@[simp] theorem noteRace_dirty (a : Nat) : (noteRace a s).dirty = s.dirty := by unfold noteRace; split <;> rfl
@[simp] theorem noteRace_stale (a : Nat) : (noteRace a s).stale = s.stale := by unfold noteRace; split <;> rfl
@[simp] theorem noteRace_agenda (a : Nat) : (noteRace a s).agenda = s.agenda := by unfold noteRace; split <;> rfl
@[simp] theorem noteRace_resp (a : Nat) : (noteRace a s).resp = s.resp := by unfold noteRace; split <;> rfl
@[simp] theorem noteRace_draws (a : Nat) : (noteRace a s).draws = s.draws := by unfold noteRace; split <;> rfl

/-! ### noteHostWrite -/

@[simp] theorem noteHostWrite_regs (p : Platform) (a : Nat) : (noteHostWrite p a s).regs = s.regs := by unfold noteHostWrite; split <;> rfl
@[simp] theorem noteHostWrite_cycle (p : Platform) (a : Nat) : (noteHostWrite p a s).cycle = s.cycle := by unfold noteHostWrite; split <;> rfl
@[simp] theorem noteHostWrite_cycleHi (p : Platform) (a : Nat) : (noteHostWrite p a s).cycleHi = s.cycleHi := by unfold noteHostWrite; split <;> rfl
@[simp] theorem noteHostWrite_job (p : Platform) (a : Nat) : (noteHostWrite p a s).job = s.job := by unfold noteHostWrite; split <;> rfl
@[simp] theorem noteHostWrite_mem (p : Platform) (a : Nat) : (noteHostWrite p a s).mem = s.mem := by unfold noteHostWrite; split <;> rfl
@[simp] theorem noteHostWrite_rstLow (p : Platform) (a : Nat) : (noteHostWrite p a s).rstLow = s.rstLow := by unfold noteHostWrite; split <;> rfl
@[simp] theorem noteHostWrite_agenda (p : Platform) (a : Nat) : (noteHostWrite p a s).agenda = s.agenda := by unfold noteHostWrite; split <;> rfl
@[simp] theorem noteHostWrite_resp (p : Platform) (a : Nat) : (noteHostWrite p a s).resp = s.resp := by unfold noteHostWrite; split <;> rfl
@[simp] theorem noteHostWrite_draws (p : Platform) (a : Nat) : (noteHostWrite p a s).draws = s.draws := by unfold noteHostWrite; split <;> rfl

/-! ### cleanCache -/

@[simp] theorem cleanCache_regs (r : Region) : (cleanCache r s).regs = s.regs := rfl
@[simp] theorem cleanCache_cycle (r : Region) : (cleanCache r s).cycle = s.cycle := rfl
@[simp] theorem cleanCache_cycleHi (r : Region) : (cleanCache r s).cycleHi = s.cycleHi := rfl
@[simp] theorem cleanCache_job (r : Region) : (cleanCache r s).job = s.job := rfl
@[simp] theorem cleanCache_mem (r : Region) : (cleanCache r s).mem = s.mem := rfl
@[simp] theorem cleanCache_rstLow (r : Region) : (cleanCache r s).rstLow = s.rstLow := rfl
@[simp] theorem cleanCache_dirty (r : Region) : (cleanCache r s).dirty = s.dirty.filter (fun a => !holds r a) := rfl
@[simp] theorem cleanCache_stale (r : Region) : (cleanCache r s).stale = s.stale := rfl
@[simp] theorem cleanCache_agenda (r : Region) : (cleanCache r s).agenda = s.agenda := rfl
@[simp] theorem cleanCache_resp (r : Region) : (cleanCache r s).resp = s.resp := rfl
@[simp] theorem cleanCache_draws (r : Region) : (cleanCache r s).draws = s.draws := rfl

/-! ### arrive -/

@[simp] theorem arrive_regs (rest : List Event) : (arrive rest s).regs = s.regs := by simp [arrive]
@[simp] theorem arrive_cycleHi (rest : List Event) : (arrive rest s).cycleHi = s.cycleHi := by simp [arrive]
@[simp] theorem arrive_job (rest : List Event) : (arrive rest s).job = s.job := by simp [arrive]
@[simp] theorem arrive_mem (rest : List Event) : (arrive rest s).mem = s.mem := by simp [arrive]
@[simp] theorem arrive_rstLow (rest : List Event) : (arrive rest s).rstLow = s.rstLow := by simp [arrive]
@[simp] theorem arrive_dirty (rest : List Event) : (arrive rest s).dirty = s.dirty := by simp [arrive]
@[simp] theorem arrive_stale (rest : List Event) : (arrive rest s).stale = s.stale := by simp [arrive]
@[simp] theorem arrive_agenda (rest : List Event) : (arrive rest s).agenda = rest := by simp [arrive]
@[simp] theorem arrive_resp (rest : List Event) : (arrive rest s).resp = .none := by simp [arrive]

end Sys2Proof.Machine
end

