-- ==== Sys2Proof/Laws/Memory.lean ====
section
/-! SUPPORT. The laws of system memory: the canonical form is kept, and what a byte reads as after a write. -/

namespace Sys2Proof.Machine

theorem wfFrom_cons {lo k : Nat} {v : Byte} {m : Memory} :
    Memory.wfFrom lo ((k, v) :: m) = true ↔
      lo ≤ k ∧ k < 2 ^ 32 ∧ v ≠ blankByte ∧ Memory.wfFrom (k + 1) m = true := by
  simp [Memory.wfFrom, and_assoc]

theorem wfFrom_mono {lo lo' : Nat} (h : lo' ≤ lo) {m : Memory} (hm : Memory.wfFrom lo m = true) :
    Memory.wfFrom lo' m = true := by
  cases m with
  | nil => rfl
  | cons c m =>
    obtain ⟨k, v⟩ := c
    rw [wfFrom_cons] at hm ⊢
    exact ⟨by omega, hm.2⟩

/-- Below the canonical form's first address nothing is listed. -/
theorem readByte_below {lo a : Nat} {m : Memory} (hm : Memory.wfFrom lo m = true) (h : a < lo) :
    readByte m a = blankByte := by
  cases m with
  | nil => rfl
  | cons c m =>
    obtain ⟨k, v⟩ := c
    rw [wfFrom_cons] at hm
    simp [readByte, show a ≠ k by omega, show a < k by omega]

theorem consCell_wfFrom {lo a : Nat} {b : Byte} {m : Memory} (hm : Memory.wfFrom (a + 1) m = true) (hlo : lo ≤ a)
    (ha : a < 2 ^ 32) : Memory.wfFrom lo (consCell a b m) = true := by
  unfold consCell
  split
  · exact wfFrom_mono (by omega) hm
  · exact wfFrom_cons.2 ⟨hlo, ha, ‹_›, hm⟩

theorem readByte_consCell {a x : Nat} {b : Byte} {m : Memory} (hm : Memory.wfFrom (a + 1) m = true) :
    readByte (consCell a b m) x = if x = a then b else readByte m x := by
  unfold consCell
  split
  · split
    · subst_vars; exact readByte_below hm (by omega)
    · rfl
  · rw [readByte]
    split
    · rfl
    · split
      · exact (readByte_below hm (by omega)).symm
      · rfl

/-- A write keeps the canonical form. -/
theorem writeByte_wfFrom {lo a : Nat} {b : Byte} {m : Memory} (hm : Memory.wfFrom lo m = true) (hlo : lo ≤ a)
    (ha : a < 2 ^ 32) : Memory.wfFrom lo (writeByte m a b) = true := by
  induction m generalizing lo with
  | nil => exact consCell_wfFrom rfl hlo ha
  | cons c m ih =>
    obtain ⟨k, v⟩ := c
    obtain ⟨h1, h2, h3, h4⟩ := wfFrom_cons.1 hm
    unfold writeByte
    split
    · exact consCell_wfFrom (wfFrom_cons.2 ⟨by omega, h2, h3, h4⟩) hlo ha
    · split
      · subst_vars; exact consCell_wfFrom h4 hlo ha
      · exact wfFrom_cons.2 ⟨h1, h2, h3, ih h4 (by omega)⟩

/-- A write keeps the canonical form. -/
theorem writeByte_wf {a : Nat} {b : Byte} {m : Memory} (hm : m.wf = true) (ha : a < 2 ^ 32) :
    Memory.wf (writeByte m a b) = true :=
  writeByte_wfFrom hm (Nat.zero_le a) ha

theorem readByte_writeByte_from {lo a x : Nat} {b : Byte} {m : Memory} (hm : Memory.wfFrom lo m = true) :
    readByte (writeByte m a b) x = if x = a then b else readByte m x := by
  induction m generalizing lo with
  | nil => exact readByte_consCell rfl
  | cons c m ih =>
    obtain ⟨k, v⟩ := c
    obtain ⟨h1, h2, h3, h4⟩ := wfFrom_cons.1 hm
    unfold writeByte
    split
    · exact readByte_consCell (wfFrom_cons.2 ⟨by omega, h2, h3, h4⟩)
    · split
      · subst_vars
        rw [readByte_consCell h4]
        split
        · rfl
        · rw [readByte]
          split
          · contradiction
          · split
            · exact readByte_below h4 (by omega)
            · rfl
      · rw [readByte, ih h4]
        conv_rhs => rw [readByte]
        split
        · split
          · omega
          · rfl
        · split
          · split
            · omega
            · rfl
          · rfl

/-- A read after a write: the byte written at its address, every other byte as before. -/
theorem readByte_writeByte {a x : Nat} {b : Byte} {m : Memory} (hm : m.wf = true) :
    readByte (writeByte m a b) x = if x = a then b else readByte m x :=
  readByte_writeByte_from hm

/-- Filling a region keeps the canonical form. -/
theorem fill_wf {m : Memory} {base n : Nat} {which : Nat → Bool} {f : Nat → Byte} (hm : m.wf = true)
    (hb : ∀ i < n, which (base + i) = true → base + i < 2 ^ 32) : Memory.wf (fill m base which f n) = true := by
  induction n with
  | zero => exact hm
  | succ n ih =>
    have ih := ih fun i hi => hb i (by omega)
    unfold fill
    split
    · exact writeByte_wf ih (hb n (by omega) ‹_›)
    · exact ih

/-- A read after filling a region: the filled byte where the region and `which` hold the address, else as before. -/
theorem readByte_fill {m : Memory} {base n : Nat} {which : Nat → Bool} {f : Nat → Byte} (hm : m.wf = true)
    (hb : ∀ i < n, which (base + i) = true → base + i < 2 ^ 32) (a : Nat) :
    readByte (fill m base which f n) a =
      if base ≤ a ∧ a < base + n ∧ which a = true then f (a - base) else readByte m a := by
  induction n with
  | zero => rw [fill, if_neg (by omega)]
  | succ n ih =>
    have hb' : ∀ i < n, which (base + i) = true → base + i < 2 ^ 32 := fun i hi => hb i (by omega)
    have ih := ih hb'
    by_cases hw : which (base + n) = true
    · rw [fill, if_pos hw, readByte_writeByte (fill_wf hm hb'), ih]
      by_cases ha : a = base + n
      · subst ha; simp [hw]
      · have : (a < base + n) ↔ (a < base + (n + 1)) := by omega
        simp [ha, this]
    · rw [fill, if_neg hw, ih]
      by_cases ha : a = base + n
      · subst ha; simp [hw]
      · have : (a < base + n) ↔ (a < base + (n + 1)) := by omega
        simp [this]

/-- Filling a region leaves every byte outside it alone. -/
theorem readByte_fill_outside {m : Memory} {base n : Nat} {which : Nat → Bool} {f : Nat → Byte} (hm : m.wf = true)
    (hb : ∀ i < n, which (base + i) = true → base + i < 2 ^ 32) {a : Nat} (ha : ¬(base ≤ a ∧ a < base + n)) :
    readByte (fill m base which f n) a = readByte m a := by
  rw [readByte_fill hm hb, if_neg]
  tauto

/-- Filling a region the predicate `which` keeps within 32 bits keeps the canonical form. -/
theorem fill_memOk_wf {m : Memory} {p : Platform} {base n : Nat} {f : Nat → Byte} (hm : m.wf = true) :
    Memory.wf (fill m base (memOk p) f n) = true :=
  fill_wf hm fun _ _ h => by simp [memOk] at h; exact h.1

theorem memOk_lt {p : Platform} {a : Nat} (h : memOk p a = true) : a < 2 ^ 32 := by
  simp [memOk] at h; exact h.1

theorem readByte_ext_from {lo : Nat} {m m' : Memory} (hm : Memory.wfFrom lo m = true)
    (hm' : Memory.wfFrom lo m' = true) (h : ∀ a, readByte m a = readByte m' a) : m = m' := by
  induction m generalizing m' lo with
  | nil =>
    cases m' with
    | nil => rfl
    | cons c t =>
      obtain ⟨k, v⟩ := c
      exact absurd (by simpa [readByte] using (h k).symm) (wfFrom_cons.1 hm').2.2.1
  | cons c t ih =>
    obtain ⟨k, v⟩ := c
    obtain ⟨h1, h2, h3, h4⟩ := wfFrom_cons.1 hm
    cases m' with
    | nil => exact absurd (by simpa [readByte] using h k) h3
    | cons c' t' =>
      obtain ⟨k', v'⟩ := c'
      obtain ⟨g1, g2, g3, g4⟩ := wfFrom_cons.1 hm'
      have hk : k = k' := by
        rcases Nat.lt_trichotomy k k' with hlt | heq | hgt
        · exact absurd (by simpa [readByte, show k ≠ k' by omega, hlt] using h k) h3
        · exact heq
        · exact absurd (by simpa [readByte, show k' ≠ k by omega, hgt] using (h k').symm) g3
      subst hk
      have hv : v = v' := by simpa [readByte] using h k
      subst hv
      congr 1
      refine ih h4 g4 fun a => ?_
      have := h a
      by_cases ha : a ≤ k
      · rw [readByte_below h4 (by omega), readByte_below g4 (by omega)]
      · simpa [readByte, show a ≠ k by omega, show ¬a < k by omega] using this

/-- Equal memories are equal lists. -/
theorem readByte_ext {m m' : Memory} (hm : m.wf = true) (hm' : m'.wf = true)
    (h : ∀ a, readByte m a = readByte m' a) : m = m' :=
  readByte_ext_from hm hm' h

end Sys2Proof.Machine
end

