-- ==== Sys2Proof/Laws/Ops.lean ====
section
/-! SUPPORT. One spec lemma per shared operation: everything it can do, said once. -/

namespace Sys2Proof.Machine

variable {p : Platform}

/-! ### The life cycle of a command -/

theorem busy_eq_false {s : State} : s.busy = false ↔ s.job = none := by simp

theorem whenIdle_idle {body : State → State} {s : State} (h : s.busy = false) :
    whenIdle body s = body (acceptCommand s) := by
  simp only [whenIdle, h, Bool.false_eq_true, if_false]

theorem whenIdle_busy {body : State → State} {s : State} (h : s.busy = true) : whenIdle body s = dropCommand s := by
  simp only [whenIdle, h, if_true]

theorem endRun_idle {s : State} (h : s.job = none) : endRun s = s := by simp [endRun, h]

theorem endRun_running {s : State} {j : Job} (h : s.job = some j) :
    endRun s =
      { s with
        job := none
        cycle := endCycle j.startCycle s.cycle
        regs := { s.regs with opcyc := endCycle j.startCycle s.cycle - j.startCycle } } := by
  simp [endRun, h]

/-- Idle, `complete` sets DONE and nothing else (30_encoding.md R89). -/
theorem complete_idle {s : State} (h : s.job = none) :
    complete s = { s with regs := { s.regs with status := { s.regs.status with done := true } } } :=
  endRun_idle h

/-- Idle, `raiseError` sets ERR and ERRCODE and nothing else (60_exceptions.md R156). -/
theorem raiseError_idle {s : State} {code : ErrCode} (h : s.job = none) :
    raiseError code s =
      { s with regs := { s.regs with status := { s.regs.status with err := true, errcode := code } } } :=
  endRun_idle h

@[simp] theorem complete_status (s : State) :
    (complete s).regs.status = { s.regs.status with done := true } := by
  unfold complete endRun; split <;> rfl

@[simp] theorem raiseError_status (s : State) (code : ErrCode) :
    (raiseError code s).regs.status = { s.regs.status with err := true, errcode := code } := by
  unfold raiseError endRun; split <;> rfl

/-- A run takes at least one cycle (10_state.md R43). -/
theorem endCycle_sub_ne_zero (start now : Count) : endCycle start now - start ≠ 0#64 := by
  unfold endCycle
  split
  · subst_vars; simp
  · intro h; exact absurd (BitVec.sub_eq_iff_eq_add.1 h) (by simpa using ‹now ≠ start›)

/-- A run command after acceptance of its word raises an error, or the job is the snapshot (30_encoding.md R91). -/
theorem startRun_cases (mode : RunMode) (s : State) :
    (∃ e, firstError p (snapshot p mode s) = some e ∧ startRun p mode s = raiseError e s) ∨
      (firstError p (snapshot p mode s) = none ∧ startRun p mode s = { s with job := some (snapshot p mode s) }) := by
  unfold startRun
  split
  · exact .inl ⟨_, ‹_›, rfl⟩
  · exact .inr ⟨‹_›, rfl⟩

/-- The error of validation is never NONE nor BUS_ERROR (60_exceptions.md R152). -/
theorem firstError_code {j : Job} {e : ErrCode} (h : firstError p j = some e) :
    e ≠ .none ∧ e ≠ .busError := by
  simp only [firstError, Option.map_eq_some_iff] at h
  obtain ⟨c, hc, rfl⟩ := h
  have := List.mem_of_find?_eq_some hc
  simp only [runChecks, List.mem_cons, List.not_mem_nil, or_false] at this
  rcases this with rfl | rfl | rfl | rfl | rfl | rfl <;> simp

/-- A validated job, in the words of 60_exceptions.md R158. -/
theorem firstError_none_iff {j : Job} :
    firstError p j = none ↔
      (j.width.toNat ≠ 0 ∧ j.height.toNat ≠ 0) ∧ ¬(j.mode.divides = true ∧ j.div = 0) ∧
        ¬(j.mode.iterates = true ∧ j.iter = 0) ∧
        (wraps j.srcBase.toNat (imageSize j.width.toNat j.height.toNat) = false ∧
          wraps j.dstBase.toNat (imageSize j.width.toNat j.height.toNat) = false) ∧
        overlaps j.srcBase.toNat j.dstBase.toNat (imageSize j.width.toNat j.height.toNat) = false ∧
        ¬(j.mode.planar = true ∧ p.maxPixels.toNat < j.width.toNat * j.height.toNat) := by
  simp [firstError, runChecks]

/-! ### Regions -/

theorem holds_iff {r : Region} {a : Nat} : holds r a = true ↔ r.base ≤ a ∧ a < r.base + r.size := by simp [holds]

theorem allIn_iff {r : Region} {test : Nat → Bool} :
    allIn r test = true ↔ ∀ a, r.base ≤ a → a < r.base + r.size → test a = true := by
  simp only [allIn, List.all_eq_true, List.mem_range]
  constructor
  · intro h a h1 h2
    simpa [show r.base + (a - r.base) = a by omega] using h (a - r.base) (by omega)
  · intro h i hi
    exact h _ (by omega) (by omega)

theorem regionsBacked_iff {j : Job} :
    regionsBacked p j = true ↔ ∀ a, holds j.source a = true ∨ holds j.dest a = true → memOk p a = true := by
  simp only [regionsBacked, Bool.and_eq_true, allIn_iff, holds_iff]
  constructor
  · rintro ⟨h1, h2⟩ a (⟨h, h'⟩ | ⟨h, h'⟩)
    · exact h1 a h h'
    · exact h2 a h h'
  · exact fun h => ⟨fun a h1 h2 => h a (.inl ⟨h1, h2⟩), fun a h1 h2 => h a (.inr ⟨h1, h2⟩)⟩

/-! ### Memory under the shared operations -/

theorem scribbleDest_mem_wf {j : Job} {s : State} (h : s.mem.wf = true) : (scribbleDest p j s).mem.wf = true := by
  rw [scribbleDest_mem]; exact fill_memOk_wf h

/-- An unspecified destination leaves every byte outside it, and every unbacked byte, alone (60_exceptions.md R154). -/
theorem readByte_scribbleDest {j : Job} {s : State} (h : s.mem.wf = true) {a : Nat}
    (ha : holds j.dest a = false ∨ memOk p a = false) :
    readByte (scribbleDest p j s).mem a = readByte s.mem a := by
  rw [scribbleDest_mem, readByte_fill h fun _ _ hk => memOk_lt hk, if_neg]
  rintro ⟨h1, h2, h3⟩
  rcases ha with ha | ha
  · rw [holds_iff.2 ⟨h1, h2⟩] at ha; cases ha
  · rw [h3] at ha; cases ha

theorem abortRun_mem_wf {s : State} (h : s.mem.wf = true) : (abortRun p s).mem.wf = true := by
  unfold abortRun
  split
  · exact h
  · exact scribbleDest_mem_wf h

theorem regionsBacked_dest_lt {j : Job} (h : regionsBacked p j = true) :
    ∀ i < j.dest.size, j.dest.base + i < 2 ^ 32 := fun i hi =>
  memOk_lt (regionsBacked_iff.1 h _ (.inr (holds_iff.2 ⟨by omega, by omega⟩)))

theorem writeResult_mem_wf {j : Job} {s : State} (h : s.mem.wf = true) (hb : regionsBacked p j = true) :
    (writeResult p j s).mem.wf = true := by
  rw [writeResult_mem]; exact fill_wf h fun i hi _ => regionsBacked_dest_lt hb i hi

theorem regionsBacked_source_lt {j : Job} (h : regionsBacked p j = true) :
    ∀ i < j.source.size, j.source.base + i < 2 ^ 32 := fun i hi =>
  memOk_lt (regionsBacked_iff.1 h _ (.inl (holds_iff.2 ⟨by omega, by omega⟩)))

/-- What the ENGINE reads: a free value where the HOST skipped its cache duty, and elsewhere what memory holds
(20_memory.md R66, R72). -/
theorem readByte_sourceView {j : Job} {s : State} (h : s.mem.wf = true) (hb : regionsBacked p j = true) (a : Nat) :
    readByte (sourceView j s) a =
      if holds j.source a = true ∧ a ∈ j.unclean then Config.drawByte (s.draws + (a - j.source.base))
      else readByte s.mem a := by
  rw [sourceView, scribble_mem, readByte_fill h fun i hi _ => regionsBacked_source_lt hb i hi]
  simp [holds, and_assoc]

/-- A clean byte is read as memory holds it. -/
theorem readByte_sourceView_clean {j : Job} {s : State} (h : s.mem.wf = true) (hb : regionsBacked p j = true) {a : Nat}
    (ha : a ∉ j.unclean) : readByte (sourceView j s) a = readByte s.mem a := by
  rw [readByte_sourceView h hb, if_neg fun h => ha h.2]

/-- The source bytes a run accepted now would find stale (20_memory.md R72). -/
theorem mem_uncleanSource {s : State} {a : Nat} :
    a ∈ uncleanSource p s ↔
      p.coherent = false ∧ a ∈ s.dirty ∧ s.regs.srcBase.toNat ≤ a ∧
        a < s.regs.srcBase.toNat + imageSize s.regs.width.toNat s.regs.height.toNat := by
  unfold uncleanSource
  cases p.coherent <;> simp [holds]

/-- The result image stands in the destination region, and nothing else changed (20_memory.md R54). -/
theorem readByte_writeResult {j : Job} {s : State} (h : s.mem.wf = true) (hb : regionsBacked p j = true)
    (a : Nat) :
    readByte (writeResult p j s).mem a =
      if holds j.dest a = true then resultAt j (sourceView j s) (a - j.dest.base) else readByte s.mem a := by
  rw [writeResult_mem, readByte_fill h fun i hi _ => regionsBacked_dest_lt hb i hi]
  simp [holds]

/-- The completion step ends the run in one of three ways (30_encoding.md R92). -/
theorem completeRun_cases (j : Job) (s : State) :
    (regionsBacked p j = false ∧ completeRun p j s = raiseError .busError (scribbleDest p j s)) ∨
      (regionsBacked p j = true ∧ resultUnspecified p j = true ∧
        completeRun p j s = complete (scribbleDest p j s)) ∨
      (regionsBacked p j = true ∧ resultUnspecified p j = false ∧
        completeRun p j s = complete (writeResult p j s)) := by
  unfold completeRun
  cases regionsBacked p j <;> cases resultUnspecified p j <;> simp

theorem completeRun_mem_wf {j : Job} {s : State} (h : s.mem.wf = true) : (completeRun p j s).mem.wf = true := by
  obtain ⟨-, e⟩ | ⟨-, -, e⟩ | ⟨hb, -, e⟩ := completeRun_cases j s <;> rw [e]
  · rw [raiseError_mem]; exact scribbleDest_mem_wf h
  · rw [complete_mem]; exact scribbleDest_mem_wf h
  · rw [complete_mem]; exact writeResult_mem_wf h hb

/-- Either end of a run is its end: BUSY is 0 (30_encoding.md R89, 60_exceptions.md R156). -/
@[simp] theorem engineTurn_busy (s : State) : (engineTurn p s).busy = false := by
  unfold engineTurn
  split
  · simp [*]
  · obtain ⟨-, e⟩ | ⟨-, -, e⟩ | ⟨-, -, e⟩ := completeRun_cases _ s <;> rw [e] <;> simp

theorem engineTurn_mem_wf {s : State} (h : s.mem.wf = true) : (engineTurn p s).mem.wf = true := by
  unfold engineTurn
  split
  · exact h
  · exact completeRun_mem_wf h

theorem hostWrite_mem_wf {a : Word} {b : Byte} {s : State} (h : s.mem.wf = true) : (hostWrite p a b s).mem.wf = true := by
  unfold hostWrite
  split
  · simpa using h
  · simpa using writeByte_wf h a.isLt

theorem invalidateCache_mem_wf {r : Region} {s : State} (h : s.mem.wf = true) :
    (invalidateCache p r s).mem.wf = true := by
  unfold invalidateCache
  split
  · exact h
  · exact fill_wf h fun i _ hi => memOk_lt (by simp at hi; exact hi.1)

/-! ### The result image by pixel -/

/-- The byte of pixel `(x, y)`, channel `c`, stands at its offset of R52. -/
theorem resultAt_pixel {j : Job} {m : Memory} {x y c : Nat} (hx : x < j.width.toNat) (hc : c < 3) :
    resultAt j m (3 * (y * j.width.toNat + x) + c) = resultByte j m x y c := by
  have h1 : (3 * (y * j.width.toNat + x) + c) / 3 = y * j.width.toNat + x := by omega
  have h2 : (3 * (y * j.width.toNat + x) + c) % 3 = c := by omega
  have h3 : (y * j.width.toNat + x) % j.width.toNat = x := by
    rw [Nat.mul_comm, Nat.mul_add_mod, Nat.mod_eq_of_lt hx]
  have h4 : (y * j.width.toNat + x) / j.width.toNat = y := by
    rw [Nat.mul_comm, Nat.mul_add_div (by omega), Nat.div_eq_of_lt hx, Nat.add_zero]
  rw [resultAt, h1, h2, h3, h4]

/-- Off the interior, RUN_DIRECT writes 0 whatever the source holds (41_direct_convolve.md R101, R102). -/
theorem directByte_border {j : Job} {m : Memory} {x y c : Nat} (h : interior j.width.toNat j.height.toNat x y = false) :
    directByte j m x y c = 0#8 := by simp [directByte, h]

/-- `interior(x, y)` in the words of 00_scope.md R13. -/
theorem interior_iff {w h x y : Nat} :
    interior w h x y = true ↔ 1 ≤ x ∧ x + 2 ≤ w ∧ 1 ≤ y ∧ y + 2 ≤ h := by
  simp [interior, and_assoc]

/-- Every offset of the destination region is the offset of one pixel and channel. -/
theorem pixel_of_offset {w h o : Nat} (ho : o < imageSize w h) :
    o / 3 % w < w ∧ o / 3 / w < h ∧ o % 3 < 3 ∧ 3 * (o / 3 / w * w + o / 3 % w) + o % 3 = o := by
  unfold imageSize at ho
  have hw : 0 < w := by
    rcases Nat.eq_zero_or_pos w with rfl | hw
    · simp at ho
    · exact hw
  refine ⟨Nat.mod_lt _ hw, ?_, Nat.mod_lt _ (by omega), ?_⟩
  · rw [Nat.div_lt_iff_lt_mul hw, Nat.div_lt_iff_lt_mul (by omega)]
    calc o < 3 * w * h := ho
      _ = h * w * 3 := by ring
  · rw [Nat.div_add_mod']; omega

/-- One pass writes the same planes whatever OUT held (42_lut_convolve.md R113). -/
theorem lutPass_out (j : Job) (planes out out' : Planes) : lutPass j planes out = lutPass j planes out' := rfl

/-- A plane's byte of pixel `(x, y)` is the source byte (42_lut_convolve.md R107). -/
theorem planarize_pixel {j : Job} {m : Memory} {x y c : Nat} (hx : x < j.width.toNat) :
    planarize j m c (y * j.width.toNat + x) = srcByte j m x y c := by
  have h3 : (y * j.width.toNat + x) % j.width.toNat = x := by
    rw [Nat.mul_comm, Nat.mul_add_mod, Nat.mod_eq_of_lt hx]
  have h4 : (y * j.width.toNat + x) / j.width.toNat = y := by
    rw [Nat.mul_comm, Nat.mul_add_div (by omega), Nat.div_eq_of_lt hx, Nat.add_zero]
  rw [planarize, h3, h4]

end Sys2Proof.Machine
end

