-- ==== Sys2Proof/Laws/PerInstr.lean ====
section
/-! SUPPORT. Statements about each command as syntax, one lemma per constructor. -/

namespace Sys2Proof.Laws.EncodesItsRow

/-- The word of a well-formed command lies in a row of the opcode map (30_encoding.md R77) and has RSVD = 0 (R75). -/
def Statement (i : Instr) : Prop :=
  i.wf = true → (∃ r ∈ opcodeMap, r.covers (encode i) = true) ∧ rsvdField (encode i) = 0

theorem nop : Statement .nop := fun _ => ⟨⟨opcodeMap[0], List.getElem_mem _, by decide⟩, by decide⟩

theorem loadPreset (id : Nat) : Statement (.loadPreset id) := by
  intro _
  refine ⟨⟨opcodeMap[1], List.getElem_mem _, ?_⟩, ?_⟩
  · simp only [opcodeMap, List.getElem_cons_succ, List.getElem_cons_zero, OpcodeRow.covers, encode, commandWord, beq_iff_eq]
    ext i hi
    simp only [BitVec.getElem_and, BitVec.getElem_append]
    interval_cases i <;> simp
  · have h : (encode (.loadPreset id)).extractLsb' 16 16 = 0#16 := by
      ext i hi
      simp only [encode, commandWord, BitVec.getElem_extractLsb', BitVec.getLsbD_append]
      interval_cases i <;> simp
    rw [rsvdField, h]; rfl

theorem runDirect : Statement .runDirect := fun _ => ⟨⟨opcodeMap[2], List.getElem_mem _, by decide⟩, by decide⟩

theorem runLut : Statement .runLut := fun _ => ⟨⟨opcodeMap[3], List.getElem_mem _, by decide⟩, by decide⟩

theorem runCopy : Statement .runCopy := fun _ => ⟨⟨opcodeMap[4], List.getElem_mem _, by decide⟩, by decide⟩

theorem softReset : Statement .softReset := fun _ => ⟨⟨opcodeMap[5], List.getElem_mem _, by decide⟩, by decide⟩

end Sys2Proof.Laws.EncodesItsRow

namespace Sys2Proof.Laws

/-- The rows of the opcode map are disjoint: no word is in two of them (30_encoding.md R78). -/
theorem opcodeMap_disjoint : opcodeMap.Pairwise fun a b => ∀ w, ¬(a.covers w = true ∧ b.covers w = true) := by
  have opcode : ∀ {r : OpcodeRow} {w : Word}, r.mask &&& 0xFF#32 = 0xFF#32 → r.covers w = true →
      w &&& 0xFF#32 = r.pattern &&& 0xFF#32 := by
    intro r w hm hc
    rw [← beq_iff_eq.1 hc, BitVec.and_assoc, hm]
  have masks : ∀ r ∈ opcodeMap, r.mask &&& 0xFF#32 = 0xFF#32 := by decide
  have patterns : opcodeMap.Pairwise fun a b => a.pattern &&& 0xFF#32 ≠ b.pattern &&& 0xFF#32 := by decide
  refine (List.pairwise_iff_forall_sublist.2 ?_)
  intro a b hab w ⟨ha, hb⟩
  have hs := hab.subset
  refine List.pairwise_iff_forall_sublist.1 patterns hab ?_
  rw [← opcode (masks a (hs (by simp))) ha, ← opcode (masks b (hs (by simp))) hb]

end Sys2Proof.Laws
end

