-- ==== Sys2Proof/Laws/Step.lean ====
section
/-! SUPPORT. What a move can do, said once per kind of move: the inversions of `deliver`, `regPort`, `waitPoll` and the
HOST's memory accesses, and the step as its move. -/

namespace Sys2Proof.Machine

variable {p : Platform}

/-! ### The configuration -/

/-- The machine's own platform is well formed (00_scope.md R8; that F_CLK is not 0 is log 2). -/
theorem platform_wf : Config.platform.wf = true := by
  have base : (Config.regBlock ++ 0#8).toNat % 256 = 0 := by
    rw [BitVec.toNat_append]; simp [Nat.shiftLeft_eq]
  unfold Platform.wf Platform.regBaseAligned Platform.capacityLegal Platform.clockRuns Config.platform
  rw [Bool.and_eq_true, Bool.and_eq_true, beq_iff_eq]
  refine ⟨⟨base, decide_eq_true ?_⟩, decide_eq_true (Nat.succ_pos _)⟩
  split
  · assumption
  · decide

/-- MAX_PIXELS is at least 9 (10_state.md R24). -/
theorem platform_capacity : 9 ≤ Config.platform.maxPixels.toNat := by
  have h := platform_wf
  simp only [Platform.wf, Platform.capacityLegal, Bool.and_eq_true, decide_eq_true_eq] at h
  exact h.1.2

/-- REG_BASE + `o` is the bus address of offset `o`: the block does not wrap, since REG_BASE is 256-byte aligned
(10_state.md R17). -/
theorem blockOffset_regBase (h : p.wf = true) (o : BitVec 8) : blockOffset p (p.regBase + o.setWidth 32) = some o := by
  simp only [Platform.wf, Platform.regBaseAligned, Bool.and_eq_true, beq_iff_eq] at h
  have hb := p.regBase.isLt
  have ho := o.isLt
  have e : (p.regBase + o.setWidth 32).toNat = p.regBase.toNat + o.toNat := by
    rw [BitVec.toNat_add, BitVec.toNat_setWidth, Nat.mod_eq_of_lt (show o.toNat < 2 ^ 32 by omega),
      Nat.mod_eq_of_lt (by omega)]
  rw [blockOffset, e, if_pos ⟨by omega, by omega⟩, Nat.add_sub_cancel_left, BitVec.ofNat_toNat, BitVec.setWidth_eq]

/-- A command's meaning is what it does on the machine's own platform. -/
theorem exec_eq_execOn (i : Instr) (s : State) : exec i s = execOn Config.platform i s := by cases i <;> rfl

/-! ### The CMD write -/

/-- A command other than SOFT_RESET, from the word's delivery: dropped, or its body after acceptance
(30_encoding.md R87, R88). -/
theorem whenIdle_cases {body : State → State} {s t : State} (h : whenIdle body s = t) :
    (s.busy = true ∧ t = dropCommand s) ∨ (s.busy = false ∧ t = body (acceptCommand s)) := by
  cases hb : s.busy
  · exact .inr ⟨rfl, by rw [← h, whenIdle_idle hb]⟩
  · exact .inl ⟨rfl, by rw [← h, whenIdle_busy hb]⟩

/-- The word of SOFT_RESET is the one word that decodes to it (30_encoding.md R77). -/
theorem decode_softReset : decode 0x00000005#32 = .ok .softReset := by decide

/-- Everything a CMD write can do (30_encoding.md R85 to R91): a drop, a SOFT_RESET, or, idle, the end of a command that
changes STATUS alone, a loaded preset, or an accepted run. -/
theorem deliver_cases {w : Word} {s t : State} (h : deliver p w s = .next t) :
    (s.busy = true ∧ w ≠ 0x00000005#32 ∧ t = dropCommand s) ∨
      (decode w = .ok .softReset ∧ t = resetEngine (abortRun p s)) ∨
      (s.busy = false ∧
        ((decode w = .ok .nop ∧ t = complete (acceptCommand s)) ∨
          (∃ e, e ≠ .none ∧ e ≠ .busError ∧ t = raiseError e (acceptCommand s)) ∨
          (∃ id e, decode w = .ok (.loadPreset id) ∧ presetTable[id]? = some e ∧
            t = complete (loadKernel e (acceptCommand s))) ∨
          (∃ mode i, (mode, i) ∈ [(RunMode.direct, Instr.runDirect), (.lut, .runLut), (.copy, .runCopy)] ∧
            decode w = .ok i ∧ firstError p (snapshot p mode (acceptCommand s)) = none ∧
            t = { acceptCommand s with job := some (snapshot p mode (acceptCommand s)) }))) := by
  have ne : ∀ {i : Except Illegal Instr}, decode w = i → i ≠ .ok .softReset → w ≠ 0x00000005#32 := by
    rintro i hd hi rfl; exact hi (hd.symm.trans decode_softReset)
  have run : ∀ mode, whenIdle (startRun p mode) s = t →
      (s.busy = true ∧ t = dropCommand s) ∨
        (s.busy = false ∧
          ((∃ e, e ≠ .none ∧ e ≠ .busError ∧ t = raiseError e (acceptCommand s)) ∨
            (firstError p (snapshot p mode (acceptCommand s)) = none ∧
              t = { acceptCommand s with job := some (snapshot p mode (acceptCommand s)) }))) := by
    intro mode h
    rcases whenIdle_cases h with h | ⟨hb, h⟩
    · exact .inl h
    · obtain ⟨e, he, h1⟩ | ⟨he, h1⟩ := startRun_cases mode (acceptCommand s)
      · exact .inr ⟨hb, .inl ⟨e, (firstError_code he).1, (firstError_code he).2, h.trans h1⟩⟩
      · exact .inr ⟨hb, .inr ⟨he, h.trans h1⟩⟩
  unfold deliver at h
  cases hd : decode w with
  | error k =>
    simp only [hd, Host.Outcome.next.injEq] at h
    rcases whenIdle_cases h with ⟨hb, h⟩ | ⟨hb, h⟩
    · exact .inl ⟨hb, ne hd (by simp), h⟩
    · exact .inr (.inr ⟨hb, .inr (.inl ⟨_, by simp, by simp, h⟩)⟩)
  | ok i =>
    simp only [hd] at h
    cases i with
    | nop =>
      simp only [execOn, performNop, Host.Outcome.next.injEq] at h
      rcases whenIdle_cases h with ⟨hb, h⟩ | ⟨hb, h⟩
      · exact .inl ⟨hb, ne hd (by simp), h⟩
      · exact .inr (.inr ⟨hb, .inl ⟨rfl, h⟩⟩)
    | loadPreset id =>
      simp only [execOn, performLoadPreset, Host.Outcome.next.injEq] at h
      rcases whenIdle_cases h with ⟨hb, h⟩ | ⟨hb, h⟩
      · exact .inl ⟨hb, ne hd (by simp), h⟩
      · unfold loadPresetBody at h
        split at h
        · exact .inr (.inr ⟨hb, .inr (.inl ⟨_, by simp, by simp, h⟩)⟩)
        · exact .inr (.inr ⟨hb, .inr (.inr (.inl ⟨id, _, rfl, ‹_›, h⟩))⟩)
    | runDirect =>
      simp only [execOn, performRunDirect, Host.Outcome.next.injEq] at h
      rcases run .direct h with ⟨hb, h⟩ | ⟨hb, he | ⟨hf, h⟩⟩
      · exact .inl ⟨hb, ne hd (by simp), h⟩
      · exact .inr (.inr ⟨hb, .inr (.inl he)⟩)
      · exact .inr (.inr ⟨hb, .inr (.inr (.inr ⟨.direct, _, by simp, rfl, hf, h⟩))⟩)
    | runLut =>
      simp only [execOn, performRunLut, Host.Outcome.next.injEq] at h
      rcases run .lut h with ⟨hb, h⟩ | ⟨hb, he | ⟨hf, h⟩⟩
      · exact .inl ⟨hb, ne hd (by simp), h⟩
      · exact .inr (.inr ⟨hb, .inr (.inl he)⟩)
      · exact .inr (.inr ⟨hb, .inr (.inr (.inr ⟨.lut, _, by simp, rfl, hf, h⟩))⟩)
    | runCopy =>
      simp only [execOn, performRunCopy, Host.Outcome.next.injEq] at h
      rcases run .copy h with ⟨hb, h⟩ | ⟨hb, he | ⟨hf, h⟩⟩
      · exact .inl ⟨hb, ne hd (by simp), h⟩
      · exact .inr (.inr ⟨hb, .inr (.inl he)⟩)
      · exact .inr (.inr ⟨hb, .inr (.inr (.inr ⟨.copy, _, by simp, rfl, hf, h⟩))⟩)
    | softReset =>
      simp only [execOn, performSoftReset, Host.Outcome.next.injEq] at h
      exact .inr (.inl ⟨rfl, h.symm⟩)

/-- A CMD write always gives a next state: no word stops the machine (30_encoding.md R78, R79). -/
theorem deliver_total (w : Word) (s : State) : ∃ t, deliver p w s = .next t := by
  unfold deliver
  split
  · rename_i i _; cases i <;> exact ⟨_, rfl⟩
  · exact ⟨_, rfl⟩

/-! ### The register port -/

/-- The register at a register's offset is that register: the map of 10_state.md R19 names each offset once. -/
@[simp] theorem regAt_offset (r : Reg) : regAt r.offset = some r := by
  cases r with
  | k n => revert n; decide
  | _ => decide

theorem regAt_eq_some {o : BitVec 8} {r : Reg} (h : regAt o = some r) : o = r.offset := by
  unfold regAt at h
  have := List.find?_some h
  exact (beq_iff_eq.1 this).symm

/-- Registers stand at multiples of 4 (10_state.md R17). -/
theorem legalAccess_offset (r : Reg) : legalAccess 32 r.offset = true := by
  cases r with
  | k n => revert n; decide
  | _ => decide

/-- A legal access to a named register, `rst_n` high: a read of it or a write of it. -/
theorem regPort_register (r : Reg) (op : RegOp) {s : State} (h : s.rstLow = false) :
    regPort p 32 r.offset op s =
      match op with
      | .read => .next (readReg p r s)
      | .write v => writeReg p r v s := by
  simp only [regPort, legalAccess_offset, accessReg, regAt_offset]
  cases op <;> simp [h]

theorem writeReg_store {r : Reg} (h : r ≠ .cmd) (v : Word) (s : State) :
    writeReg p r v s = .next (storeReg r v (answer .ack s)) := by
  cases r <;> first | rfl | exact absurd rfl h

/-- Everything a register access can do (10_state.md R17, R18, R20): an answer alone, a latch of the CYCLE_HI shadow, a
delivered word, or a stored value. -/
theorem regPort_cases {bits : Nat} {o : BitVec 8} {op : RegOp} {s t : State} (h : regPort p bits o op s = .next t) :
    (∃ a, t = { s with resp := a }) ∨ (op = .read ∧ t = readReg p .cycleLo s) ∨
      (s.rstLow = false ∧ bits = 32 ∧
        ∃ v, op = .write v ∧
          ((o = Reg.cmd.offset ∧ deliver p v (answer .ack s) = .next t) ∨
            ∃ r, r ≠ .cmd ∧ o = r.offset ∧ t = storeReg r v (answer .ack s))) := by
  unfold regPort at h
  split at h
  · exact .inl ⟨_, (Host.Outcome.next.inj h).symm⟩
  rename_i hl
  simp only [legalAccess, Bool.not_eq_true, Bool.not_eq_false', Bool.and_eq_true, beq_iff_eq] at hl
  unfold accessReg at h
  split at h
  · have e : ∀ op, ∃ a, razWi op s = { s with resp := a } := fun op => by cases op <;> exact ⟨_, rfl⟩
    obtain ⟨a, e⟩ := e _
    exact .inl ⟨a, (Host.Outcome.next.inj h).symm.trans e⟩
  · rename_i r _
    have h := (Host.Outcome.next.inj h).symm
    by_cases hc : r = .cycleLo
    · subst hc; exact .inr (.inl ⟨rfl, h⟩)
    · left
      cases r <;> first | exact ⟨_, h⟩ | exact absurd rfl hc
  · rename_i r v hreg
    split at h
    · exact .inl ⟨_, (Host.Outcome.next.inj h).symm⟩
    rename_i hr
    refine .inr (.inr ⟨by simpa using hr, hl.1, v, rfl, ?_⟩)
    by_cases hc : r = .cmd
    · subst hc; exact .inl ⟨regAt_eq_some hreg, h⟩
    · rw [writeReg_store hc] at h
      exact .inr ⟨r, hc, regAt_eq_some hreg, (Host.Outcome.next.inj h).symm⟩

theorem regPort_total (bits : Nat) (o : BitVec 8) (op : RegOp) (s : State) : ∃ t, regPort p bits o op s = .next t := by
  unfold regPort
  split
  · exact ⟨_, rfl⟩
  unfold accessReg
  split
  · exact ⟨_, rfl⟩
  · exact ⟨_, rfl⟩
  · split
    · exact ⟨_, rfl⟩
    rename_i r v _ _
    by_cases hc : r = .cmd
    · subst hc; exact deliver_total v _
    · exact ⟨_, writeReg_store hc v s⟩

/-! ### The HOST's other moves -/

/-- A HOST read of memory answers, and may take one free value; it changes nothing else (20_memory.md R68). -/
theorem hostRead_cases (a : Word) (s : State) : ∃ r d, hostRead p a s = { s with resp := r, draws := d } := by
  unfold hostRead
  split
  · exact ⟨_, _, rfl⟩
  · split <;> exact ⟨_, _, rfl⟩

/-- The race flag is not part of what makes a run BUSY, nor of what a job computes. -/
theorem noteRace_job (a : Nat) (s : State) :
    (noteRace a s).job =
      s.job.map fun j => { j with race := j.race || holds j.source a || holds j.dest a } := by
  unfold noteRace
  cases h : s.job <;> simp [h]

/-- A HOST write of memory touches memory, the race flag, the cache lists and the answer, and nothing else. -/
theorem hostWrite_frame (a : Word) (b : Byte) (s : State) :
    (hostWrite p a b s).regs = s.regs ∧
      (hostWrite p a b s).cycle = s.cycle ∧ (hostWrite p a b s).cycleHi = s.cycleHi ∧
      (hostWrite p a b s).job = (noteRace a.toNat s).job ∧ (hostWrite p a b s).rstLow = s.rstLow ∧
      (hostWrite p a b s).agenda = s.agenda ∧ (hostWrite p a b s).draws = s.draws := by
  unfold hostWrite
  split
  · simp
  · refine ⟨by simp, by simp, by simp, ?_, by simp, by simp, by simp⟩
    simp only [answer_job, noteHostWrite_job, noteRace_job]

/-- A poll of `wait` answers, and may put itself and the ENGINE's turn back on the agenda
(30_encoding.md R82; log 14). -/
theorem waitPoll_cases (n : Nat) (s : State) :
    ∃ r, waitPoll p n s =
      { s with
        resp := r
        agenda := (if s.busy then (match n with | 0 => [.engine, .wait 0] | k + 1 => [.wait k]) else []) ++ s.agenda } := by
  refine ⟨.word (regValue p .status s), ?_⟩
  simp only [waitPoll, readReg, afterRead]
  split
  · cases n <;> rfl
  · rfl

/-! ### The step -/

/-- A step is the ENGINE's turn or the next move of the agenda, after time has passed (log 1). -/
theorem stepOn_nil {s : State} (h : s.agenda = []) : stepOn p s = .next (engineTurn p (arrive [] s)) := by
  simp only [stepOn, nextMove, h, perform]

theorem stepOn_cons {s : State} {e : Event} {rest : List Event} (h : s.agenda = e :: rest) :
    stepOn p s = perform p e (arrive rest s) := by
  simp only [stepOn, nextMove, h]

end Sys2Proof.Machine
end

