-- ==== Sys2Proof/Machine/Metrics.lean ====
section
/-! DEFINITION. The figures a HOST derives from OPCYC (10_state.md R43), as exact rationals. They are the HOST's
arithmetic and no part of a step. -/

namespace Sys2Proof.Machine

/-- Cycles per pixel of a run without a pass count: OPCYC / (W*H) (10_state.md R43). -/
def cyclesPerPixel (opcyc : Count) (w h : Nat) : Rat := (opcyc.toNat : Rat) / ((w * h : Nat) : Rat)

/-- Cycles per pixel of RUN_LUT: OPCYC / (W*H) / ITER (10_state.md R43). -/
def cyclesPerPixelPass (opcyc : Count) (w h iter : Nat) : Rat := cyclesPerPixel opcyc w h / (iter : Rat)

/-- Nanoseconds: OPCYC * 10^9 / F_CLK (10_state.md R43). -/
def nanoseconds (p : Platform) (opcyc : Count) : Rat := (opcyc.toNat : Rat) * 10 ^ 9 / (p.fClk : Rat)

end Sys2Proof.Machine
end

