-- ==== Sys2Proof/Tests/Slice0.lean ====
section
/-! SUPPORT. Tests on fixed values. Expected results are those of spec/95_test_vectors.md (named as L1, L2), or of the
rule a test names. -/

namespace Sys2Proof.Tests

open Sys2Proof Sys2Proof.Machine Sys2Proof.Spec

/-! ### Well-formedness: one ill-formed term for each check -/

/-- ARG is 8 bits (R75): id 256 is refused. -/
theorem test_wf_refuses_id : (Instr.loadPreset 256).wf = false := by decide

theorem test_wf_accepts_id : (Instr.loadPreset 255).wf = true := by decide

/-- A platform in the shape of 95_test_vectors.md L3. -/
def board : Platform :=
  { regBase := 0x40000000#32
    maxPixels := 16#32
    fClk := 1000000
    coherent := true
    backed := [{ base := 0x1000, size := 0x4000 }]
    notOrdinary := [] }

theorem test_wf_accepts_platform : board.wf = true := by decide

/-- REG_BASE is 256-byte aligned (R8). -/
theorem test_wf_refuses_reg_base : ({ board with regBase := 0x40000080#32 } : Platform).wf = false := by decide

/-- MAX_PIXELS is at least 9 (R8). -/
theorem test_wf_refuses_capacity : ({ board with maxPixels := 8#32 } : Platform).wf = false := by decide

theorem test_wf_refuses_clock : ({ board with fClk := 0 } : Platform).wf = false := by decide

/-! ### Decoding: words written out from R75 and R77, bits 31 to 0 -/

theorem test_decode_nop : decode 0b00000000000000000000000000000000#32 = .ok .nop := by decide

theorem test_decode_load_preset : decode 0b00000000000000000000001000000001#32 = .ok (.loadPreset 2) := by decide

theorem test_decode_run_direct : decode 0b00000000000000000000000000000010#32 = .ok .runDirect := by decide

theorem test_decode_run_lut : decode 0b00000000000000000000000000000011#32 = .ok .runLut := by decide

theorem test_decode_run_copy : decode 0b00000000000000000000000000000100#32 = .ok .runCopy := by decide

theorem test_decode_soft_reset : decode 0b00000000000000000000000000000101#32 = .ok .softReset := by decide

/-- L2.1: ARG or RSVD not 0. -/
theorem test_decode_refuses :
    decode 0x00000105#32 = .error .arg ∧ decode 0x80000003#32 = .error .rsvd ∧ decode 0x00000006#32 = .error .opcode := by
  decide

theorem test_decode_table_word : decodeTableWord 32 0x0000FF01 = some (.loadPreset 255) := by decide

/-! ### States -/

/-- The memory that holds `bytes` from `base` on. -/
def image (base : Nat) (bytes : List Byte) : Memory :=
  (bytes.zipIdx.filter fun c => c.1 != blankByte).map fun c => (base + c.2, c.1)

/-- Idle, after reset. -/
def idle : State := State.reset

/-- The board with nothing backed. -/
def bare : Platform := { board with backed := [] }

/-- Idle, with STATUS as given by its flags. -/
def withStatus (done err ovf : Bool) (code : ErrCode) : State :=
  { idle with regs := { RegBlock.reset with status := { done := done, err := err, ovf := ovf, errcode := code } } }

/-- Idle and set up for a 3x3 image at 0x1000 with the result at 0x2000 (L3). -/
def ready (kernel : Kernel) (div : Half) (m : Memory) : State :=
  { idle with
    mem := m
    regs :=
      { RegBlock.reset with
        width := 3#16
        height := 3#16
        srcBase := 0x1000#32
        dstBase := 0x2000#32
        kernel := kernel
        div := div } }

/-- The run of `s`'s registers in progress, accepted on the board. -/
def running (mode : RunMode) (s : State) : State := { s with job := some (snapshot board mode s) }

/-- The three rows (10,50,0), (20,20,0), (50,10,200) of L1.7. -/
def edges : Memory :=
  image 0x1000
    [0x0A, 0x32, 0x00, 0x14, 0x14, 0x00, 0x32, 0x0A, 0xC8, 0x0A, 0x32, 0x00, 0x14, 0x14, 0x00, 0x32, 0x0A, 0xC8, 0x0A,
      0x32, 0x00, 0x14, 0x14, 0x00, 0x32, 0x0A, 0xC8]

/-- Every pixel `(r, g, b)`. -/
def uniform (r g b : Byte) : Memory := image 0x1000 (List.replicate 9 [r, g, b]).flatten

/-- STATUS after a step. -/
def statusAfter (o : Outcome) : Option Word :=
  match o with
  | .next t => some (statusWord t)
  | .fault _ => none
  | .refused _ => none

/-- The bytes of the destination at 0x2000 from offset `o` on, after a step. -/
def resultAfter (o : Outcome) (offset n : Nat) : Option (List Byte) :=
  match o with
  | .next t => some ((List.range n).map fun i => readByte t.mem (0x2000 + offset + i))
  | .fault _ => none
  | .refused _ => none

/-- A register's value after a step. -/
def regAfter (o : Outcome) (r : Reg) : Option Word :=
  match o with
  | .next t => some (regValue board r t)
  | .fault _ => none
  | .refused _ => none

/-! ### The commands -/

/-- L2.6: STATUS 0x00000704, then NOP. -/
theorem test_nop : statusAfter (exec .nop (withStatus false true false .overlap)) = some 0x00000002#32 := by decide

/-- L2.6: OVF is kept. -/
theorem test_nop_keeps_ovf : statusAfter (exec .nop (withStatus false false true .none)) = some 0x0000000A#32 := by decide

/-- L1.1, vline: K3 = -2. -/
theorem test_load_preset : regAfter (exec (.loadPreset 1) idle) (.k 3) = some 0xFFFFFFFE#32 := by decide

/-- L2.2: an unknown id. -/
theorem test_load_preset_unknown : statusAfter (exec (.loadPreset 9) idle) = some 0x00000204#32 := by decide

/-- L1.7, DIRECT: centre (160, 0, 255). -/
theorem test_run_direct :
    resultAfter (stepOn board (running .direct (ready vline.kernel vline.div edges))) 12 3 = some [0xA0, 0x00, 0xFF] := by
  decide

/-- L2.3 #7: tdiv(-3, 2) is clamped to 0; the border is 0. -/
theorem test_run_direct_negative :
    resultAfter (stepOn board (running .direct (ready #v[0, 0, 0, 0, -3, 0, 0, 0, 0] 2 (uniform 1 2 255)))) 9 6
      = some [0, 0, 0, 0, 0, 0] := by
  decide

/-- L1.7, LUT: centre (160, 160, 32). -/
theorem test_run_lut :
    resultAfter (stepOn board (running .lut (ready vline.kernel vline.div edges))) 12 3 = some [0xA0, 0xA0, 0x20] := by
  decide

/-- L2.4 #7: -384 gives -2 and -97,920 gives -383 under floor. -/
theorem test_run_lut_floor :
    resultAfter (stepOn board (running .lut (ready #v[0, 0, 0, 0, -3, 0, 0, 0, 0] 2 (uniform 1 2 255)))) 12 3
      = some [2, 3, 127] := by
  decide

/-- L2.5: the image of L1.7 is copied, border included. -/
theorem test_run_copy :
    resultAfter (stepOn board (running .copy (ready vline.kernel 0 edges))) 0 15
      = some [0x0A, 0x32, 0x00, 0x14, 0x14, 0x00, 0x32, 0x0A, 0xC8, 0x0A, 0x32, 0x00, 0x14, 0x14, 0x00] := by
  decide

/-- L2.7: with MAX_PIXELS = 9 a 4x3 image is TOO_LARGE for RUN_COPY. -/
theorem test_run_copy_too_large :
    let s := ready vline.kernel 0 []
    statusAfter (execOn { board with maxPixels := 9 } .runCopy { s with regs := { s.regs with width := 4 } }) = some 0x00000804#32 := by
  decide

/-- L2.6: ITER returns to 1. -/
theorem test_soft_reset :
    regAfter (exec .softReset { idle with regs := { RegBlock.reset with iter := 9 } }) .iter = some 1#32 := by decide

/-- L2.7 #19: accepted, STATUS 0x00000001, though a source byte is not backed. -/
theorem test_run_direct_accepted :
    let s := ready gauss.kernel gauss.div []
    statusAfter (execOn bare .runDirect s) = some 0x00000001#32 := by decide

/-! ### Witnesses: concrete states and operands that meet the hypotheses of each statement -/

/-- `ready` with the gauss kernel and L1.5's uniform image. -/
def gaussReady : State := ready gauss.kernel gauss.div (uniform 100 150 200)

/-- The board with COHERENT false. -/
def incoherent : Platform := { board with coherent := false }

/-- A `ready` state with the run's word and the ENGINE's turn on the agenda. The first source byte is dirty in a HOST
cache. -/
def queued (w : Word) : State := { gaussReady with agenda := [cmdWrite w, .engine], dirty := [0x1000] }

theorem memOk_board {a : Nat} (h : 0x1000 ≤ a ∧ a < 0x5000) : memOk board a = true := by
  simp only [memOk, board, holds, List.any_cons, List.any_nil, Bool.or_false, Bool.and_eq_true, decide_eq_true_eq]
  omega

theorem ready_regions (kernel : Kernel) (div : Half) (m : Memory) (a : Nat) :
    inSource (ready kernel div m) a ∨ inDest (ready kernel div m) a ↔
      (0x1000 ≤ a ∧ a < 0x101B) ∨ (0x2000 ≤ a ∧ a < 0x201B) := Iff.rfl

theorem ready_geometry (kernel : Kernel) (div : Half) (m : Memory) : Geometry (ready kernel div m) where
  width := (by decide : 0 < 3)
  height := (by decide : 0 < 3)
  srcFits := (by decide : 0x1000 + 27 ≤ 2 ^ 32)
  dstFits := (by decide : 0x2000 + 27 ≤ 2 ^ 32)
  disjoint := .inl (by decide : 0x1000 + 27 ≤ 0x2000)

theorem ready_duties (kernel : Kernel) (div : Half) (m : Memory) : Duties incoherent (ready kernel div m) where
  backed a h := memOk_board (by rw [ready_regions] at h; omega)
  ordinary _ _ := rfl

theorem queued_ready (w : Word) : RunReady incoherent (queued w) w [] where
  memory := (by decide : gaussReady.mem.wf = true)
  idle := rfl
  running := rfl
  agenda := rfl
  geometry :=
    let g := ready_geometry gauss.kernel gauss.div (uniform 100 150 200)
    ⟨g.width, g.height, g.srcFits, g.dstFits, g.disjoint⟩
  duties :=
    let d := ready_duties gauss.kernel gauss.div (uniform 100 150 200)
    ⟨d.backed, d.ordinary⟩

theorem witness_DecodeOfEncodeIsTheCommand : (Instr.loadPreset 255).wf = true := by decide

theorem witness_EncodeOfDecodeIsTheWord : decode 0x0000FF01#32 = .ok (.loadPreset 255) := by decide

theorem witness_IllegalWordsRaiseBadCommand :
    decode 0x00000006#32 = .error .opcode ∧ decode 0x00010000#32 = .error .rsvd ∧ decode 0x00000105#32 = .error .arg ∧
      idle.busy = false ∧ (running .direct gaussReady).busy = true ∧ (3 ≤ 3 ∧ 3 ≤ 255) ∧ (3 ≤ 255 ∧ 255 ≤ 255) := by
  decide

theorem witness_StepRunsTheDecodedCommand :
    (queued 0x00000002#32).rstLow = false ∧ (queued 0x00000002#32).agenda = cmdWrite 0x00000002#32 :: [.engine] ∧
      blockOffset Config.platform (Config.platform.regBase + 0x0C#32) = some 0x0C#8 ∧
      decode 0x00000002#32 = .ok .runDirect :=
  ⟨rfl, rfl, blockOffset_regBase platform_wf 0x0C#8, by decide⟩

theorem witness_FetchWordIsTheNextCommand : decodeTableWord 32 0x00000003 = some .runLut := by decide

theorem witness_StepPerformsTheNextMove :
    idle.agenda = [] ∧ (queued 0x00000002#32).agenda = cmdWrite 0x00000002#32 :: [.engine] := by decide

theorem witness_NopCompletes : idle.busy = false ∧ (running .lut gaussReady).busy = true := by decide

theorem witness_LoadPresetLoadsTheTable : (idle.busy = false ∧ 2 < 3) ∧ (running .lut gaussReady).busy = true := by
  decide

theorem witness_RunDirectIsAccepted :
    gaussReady.busy = false ∧ Geometry gaussReady ∧ 0 < gaussReady.regs.div.toNat :=
  ⟨by decide, ready_geometry _ _ _, by decide⟩

/-- The geometry at its edges (L2.7 #9 and #12): the source ends at 0xFFFFFFFF, and the destination right before it. -/
theorem witness_GeometryAtTheEdges :
    Geometry { gaussReady with
      regs := { gaussReady.regs with srcBase := 0xFFFFFFE5#32, dstBase := 0xFFFFFFCA#32 } } where
  width := by decide
  height := by decide
  srcFits := by decide
  dstFits := by decide
  disjoint := .inr (by decide)

theorem witness_RunLutIsAccepted :
    gaussReady.busy = false ∧ Geometry gaussReady ∧ 0 < gaussReady.regs.div.toNat ∧ 0 < gaussReady.regs.iter.toNat ∧
      W gaussReady * H gaussReady ≤ Config.platform.maxPixels.toNat ∧
      W gaussReady * H gaussReady ≤ board.maxPixels.toNat :=
  ⟨by decide, ready_geometry _ _ _, by decide, by decide, platform_capacity, by decide⟩

theorem witness_RunCopyIsAccepted :
    gaussReady.busy = false ∧ Geometry gaussReady ∧ W gaussReady * H gaussReady ≤ Config.platform.maxPixels.toNat ∧
      W gaussReady * H gaussReady ≤ board.maxPixels.toNat :=
  ⟨by decide, ready_geometry _ _ _, platform_capacity, by decide⟩

/-- Each branch of the chain at the edge of its range (L2.7 #4, #5, #6, #8, #11, #15): the branches before it do not
apply, and the last branch is `gaussReady`. -/
theorem witness_ValidationReportsTheFirstFailingCheck :
    let s := gaussReady
    let at' := fun (r : RegBlock) => ({ s with regs := r } : State)
    let dims := at' { s.regs with height := 0 }
    let divZero := at' { s.regs with div := 0 }
    let badIter := at' { s.regs with iter := 0 }
    let range := at' { s.regs with srcBase := 0xFFFFFFE6#32 }
    let overlap := at' { s.regs with dstBase := 0x101A#32 }
    let large := at' { s.regs with width := 4 }
    (dims.busy = false ∧ H dims = 0) ∧
    (divZero.busy = false ∧ W divZero ≠ 0 ∧ H divZero ≠ 0 ∧ divZero.regs.div.toNat = 0) ∧
    (badIter.busy = false ∧ W badIter ≠ 0 ∧ H badIter ≠ 0 ∧ badIter.regs.div.toNat ≠ 0 ∧
      badIter.regs.iter.toNat = 0) ∧
    (range.busy = false ∧ W range ≠ 0 ∧ H range ≠ 0 ∧ range.regs.div.toNat ≠ 0 ∧ range.regs.iter.toNat ≠ 0 ∧
      0xFFFFFFFF < range.regs.srcBase.toNat + bytes range - 1) ∧
    (overlap.busy = false ∧ W overlap ≠ 0 ∧ H overlap ≠ 0 ∧ overlap.regs.div.toNat ≠ 0 ∧
      overlap.regs.iter.toNat ≠ 0 ∧ overlap.regs.srcBase.toNat + bytes overlap - 1 ≤ 0xFFFFFFFF ∧
      overlap.regs.dstBase.toNat + bytes overlap - 1 ≤ 0xFFFFFFFF ∧
      overlap.regs.srcBase.toNat < overlap.regs.dstBase.toNat + bytes overlap ∧
      overlap.regs.dstBase.toNat < overlap.regs.srcBase.toNat + bytes overlap) ∧
    (large.busy = false ∧ W large ≠ 0 ∧ H large ≠ 0 ∧ large.regs.div.toNat ≠ 0 ∧ large.regs.iter.toNat ≠ 0 ∧
      large.regs.srcBase.toNat + bytes large - 1 ≤ 0xFFFFFFFF ∧
      large.regs.srcBase.toNat + bytes large ≤ large.regs.dstBase.toNat ∧
      ({ board with maxPixels := 11#32 } : Platform).maxPixels.toNat < W large * H large) ∧
    s.busy = false := by
  decide

theorem witness_BusyDropsEveryWordButSoftReset :
    (running .direct gaussReady).busy = true ∧ (0x00000100#32 : Word) ≠ 0x00000005#32 := by decide

theorem witness_ValidationErrorsChangeOnlyStatus :
    ∃ t, idle.busy = false ∧ deliver board 0x00000301#32 idle = .next t ∧ t.regs.status.err = true :=
  ⟨ended idle false true .unknownFilter, by decide, rfl, by decide⟩

theorem witness_SoftResetRestoresResetValues :
    let s := running .direct gaussReady
    s.mem.wf = true ∧ idle.busy = false ∧
      ∃ j, s.job = some j ∧ ¬inJobDest j 0x1FFF ∧ ¬inJobDest j 0x201B ∧ inJobDest j 0x2000 ∧
        memOk bare 0x2000 = false :=
  ⟨by decide, by decide, _, rfl, by decide, by decide, by decide, by decide⟩

theorem witness_RunDirectWritesTheFilteredImage :
    let s := queued 0x00000002#32
    RunReady incoherent s 0x00000002#32 [] ∧ 0 < s.regs.div.toNat ∧ isInterior (W s) (H s) 1 1 ∧ ¬isInterior (W s) (H s) 2 2 ∧
      visible incoherent s 0x1001 ∧ ¬visible incoherent s 0x1000 ∧ visible board s 0x1000 :=
  ⟨queued_ready _, by decide, by decide, by decide, by decide, by decide, by decide⟩

theorem witness_RunLutWritesTheScaledImage :
    let s := queued 0x00000003#32
    RunReady incoherent s 0x00000003#32 [] ∧ 0 < s.regs.div.toNat ∧ 0 < s.regs.iter.toNat ∧
      W s * H s ≤ incoherent.maxPixels.toNat ∧ isInterior (W s) (H s) 1 1 ∧ ¬isInterior (W s) (H s) 0 1 ∧
      visible incoherent s 0x1001 ∧ ¬visible incoherent s 0x1000 :=
  ⟨queued_ready _, by decide, by decide, by decide, by decide, by decide, by decide, by decide⟩

theorem witness_RunCopyIsAnExactRoundTrip :
    let s := queued 0x00000004#32
    RunReady incoherent s 0x00000004#32 [] ∧ W s * H s ≤ incoherent.maxPixels.toNat ∧ 26 < bytes s ∧
      visible incoherent s (s.regs.srcBase.toNat + 26) :=
  ⟨queued_ready _, by decide, by decide, by decide⟩

theorem witness_EngineWritesOnlyTheDestination :
    let s := running .lut gaussReady
    s.mem.wf = true ∧ ∃ j, s.job = some j ∧ ¬inJobDest j 0x1FFF ∧ ¬inJobDest j 0x201B :=
  ⟨by decide, _, rfl, by decide, by decide⟩

theorem witness_ResultDependsOnlyOnJobAndSource :
    let s := running .lut gaussReady
    let s' : State := { s with mem := writeByte s.mem 0x2000 1#8, draws := 5 }
    s.mem.wf = true ∧ s'.mem.wf = true ∧
      ∃ j, s.job = some j ∧ s'.job = some j ∧ j.valid board ∧ j.race = false ∧ j.unclean = [] ∧
        (∀ a, inJobSource j a ∨ inJobDest j a →
          memOk board a = true ∧ Sys2Proof.Machine.ordinary board a = true) ∧
        (∀ a, inJobSource j a → readByte s.mem a = readByte s'.mem a) ∧ inJobDest j 0x201A := by
  refine ⟨by decide, by decide, _, rfl, rfl, by unfold Job.valid; decide, rfl, rfl, fun a h => ⟨memOk_board ?_, rfl⟩,
    fun a h => ?_, by decide⟩
  · have : (0x1000 ≤ a ∧ a < 0x101B) ∨ (0x2000 ≤ a ∧ a < 0x201B) := h
    omega
  · have h : 0x1000 ≤ a ∧ a < 0x101B := h
    obtain ⟨i, rfl⟩ : ∃ i, a = 0x1000 + i := ⟨a - 0x1000, by omega⟩
    have : i < 27 := by omega
    interval_cases i <;> decide

theorem witness_UnbackedRegionEndsInBusError :
    let s := running .direct gaussReady
    let p : Platform := { board with backed := [{ base := 0x1001, size := 0x1019 }] }
    s.mem.wf = true ∧ s.regs.status.done = false ∧
      ∃ j, s.job = some j ∧ (inJobSource j 0x1000 ∧ memOk p 0x1000 = false) ∧
        (inJobDest j 0x201A ∧ memOk p 0x201A = false) :=
  ⟨by decide, by decide, _, rfl, ⟨by decide, by decide⟩, ⟨by decide, by decide⟩⟩

theorem witness_RacedRunStillEndsInDone :
    let s := noteRace 0x1000 (running .copy gaussReady)
    s.mem.wf = true ∧ s.regs.status.err = false ∧ s.regs.status.errcode = .none ∧
      ∃ j, s.job = some j ∧ j.race = true ∧
        (∀ a, inJobSource j a ∨ inJobDest j a → memOk board a = true) ∧ ¬inJobDest j 0x1FFF := by
  refine ⟨by decide, rfl, rfl, _, rfl, by decide, fun a h => memOk_board ?_, by decide⟩
  have : (0x1000 ≤ a ∧ a < 0x101B) ∨ (0x2000 ≤ a ∧ a < 0x201B) := h
  omega

theorem witness_ConfigurationWritesDoNotReachARunningJob :
    (running .direct gaussReady).busy = true ∧ isConfig (.k 8) = true ∧ isConfig .irqEn = true := by decide

theorem witness_PrimitivesAreTheSpecs : (0 : Nat) < 1 := by decide

theorem witness_PassCountDoesNotMatter : (1 : Nat) ≤ 1 := by decide

theorem witness_DirectRoundingIsNotObservable : (0 : Nat) < 24 ∧ (-1 : Int) < 0 ∧ 256 * ((24 : Nat) : Int) ≤ 6144 := by
  decide

/-- A job of a 3x3 image with DIV = 1. -/
def jobOf (kernel : Kernel) (div : Half) : Job := snapshot board .lut (ready kernel div [])

theorem witness_UniformImages :
    let total : Job → Int := fun j => (j.kernel.toList.map fun w => w.toInt).sum
    (∀ x' y', x' < (jobOf gauss.kernel gauss.div).width.toNat → y' < (jobOf gauss.kernel gauss.div).height.toNat →
      srcByte (jobOf gauss.kernel gauss.div) (uniform 100 150 200) x' y' 1 = 150#8) ∧
    0 < (jobOf gauss.kernel gauss.div).div.toNat ∧
    isInterior (jobOf gauss.kernel gauss.div).width.toNat (jobOf gauss.kernel gauss.div).height.toNat 1 1 ∧
    total (jobOf gauss.kernel gauss.div) = (jobOf gauss.kernel gauss.div).div.toNat ∧
    total (jobOf vline.kernel vline.div) = 0 ∧ (jobOf vline.kernel vline.div).div = 1#16 ∧
    0 < (jobOf vline.kernel vline.div).iter.toNat ∧
    (∀ x' y', x' < (jobOf vline.kernel vline.div).width.toNat → y' < (jobOf vline.kernel vline.div).height.toNat →
      srcByte (jobOf vline.kernel vline.div) (uniform 100 150 200) x' y' 1 = 150#8) := by
  refine ⟨?_, by decide, by decide, by decide, by decide, by decide, by decide, ?_⟩ <;>
  · intro x' y' hx hy
    have hx : x' < 3 := hx
    have hy : y' < 3 := hy
    interval_cases x' <;> interval_cases y' <;> decide

theorem witness_GaussLutOnAUniformImage :
    let j := jobOf gauss.kernel gauss.div
    j.kernel = gauss.kernel ∧ j.div = gauss.div ∧ 0 < j.iter.toNat ∧
      (∀ x' y', x' < j.width.toNat → y' < j.height.toNat → srcByte j (uniform 100 150 200) x' y' 0 = 100#8) ∧
      isInterior j.width.toNat j.height.toNat 1 1 := by
  refine ⟨rfl, rfl, by decide, ?_, by decide⟩
  intro x' y' hx hy
  have hx : x' < 3 := hx
  have hy : y' < 3 := hy
  interval_cases x' <;> interval_cases y' <;> decide

theorem witness_LutWithDivisorOne :
    let identity := jobOf #v[0, 0, 0, 0, 1, 0, 0, 0, 0] 1
    identity.div = 1#16 ∧ isInterior identity.width.toNat identity.height.toNat 1 1 ∧
      directAcc identity (uniform 0 128 255) 1 1 0 = 0 ∧ directAcc identity (uniform 0 128 255) 1 1 2 = 255 ∧
      identity.kernel = #v[0, 0, 0, 0, 1, 0, 0, 0, 0] := by
  decide

theorem witness_MalformedAccessHasNoEffect :
    ¬(16 = 32 ∧ (0x10#8).toNat % 4 = 0) ∧ ¬(32 = 32 ∧ (0x02#8).toNat % 4 = 0) ∧ board.wf = true := by decide

theorem witness_UnnamedOffsetsReadZeroAndIgnoreWrites :
    (∀ o ∈ [0x54#8, 0x5C#8, 0x70#8, 0xFC#8],
      o.toNat % 4 = 0 ∧ (0x54 ≤ o.toNat ∧ o.toNat ≤ 0x5C ∨ 0x70 ≤ o.toNat)) ∧
      Reg.opcycLo ∈ [Reg.id, .cap, .maxpix, .cycleLo, .cycleHi, .opcycLo, .opcycHi] := by
  decide

theorem witness_RegistersReadBack : isConfig (.k 0) = true ∧ isConfig .iter = true ∧ Reg.k 1 ≠ Reg.k 0 := by decide

theorem witness_ConfigurationWriteCompletes :
    idle.rstLow = false ∧ isConfig (.k 8) = true ∧ isConfig .srcBase = true ∧ Reg.k 7 ≠ Reg.k 8 := by decide

theorem witness_StatusWriteOneClears : (withStatus false true true .divZero).rstLow = false := by decide

/-- L2.8 #3: DONE is the enabled set flag, and the write has a 1 for it; and OVF is not an enabled set flag. -/
theorem witness_AcknowledgeDeassertsTheLine :
    let s := storeReg .irqEn 1#32 (withStatus true false true .none)
    let v := 0x00000002#32
    s.irq = true ∧ (s.regs.status.done = true → s.regs.irqEn.doneIe = true → v[1] = true) ∧
      (s.regs.status.err = true → s.regs.irqEn.errIe = true → v[2] = true) ∧
      (s.regs.status.ovf = true → s.regs.irqEn.ovfIe = true → v[3] = true) ∧
      ¬(s.regs.status.ovf = true ∧ s.regs.irqEn.ovfIe = true) := by
  decide

theorem witness_SnapIsOneReadingOfCycle :
    let s : State := { idle with agenda := ScriptLine.snap.moves board ++ [.engine] }
    board.wf = true ∧ s.rstLow = false ∧ s.agenda = ScriptLine.snap.moves board ++ [.engine] := by
  decide

theorem witness_CycleOnlyCountsUp :
    idle.rstLow = false ∧ idle.agenda.head? ≠ some .rstAssert ∧ ∃ t, stepOn board idle = .next t :=
  ⟨by decide, by decide, _, rfl⟩

theorem witness_OpcycChangesOnlyAtTheEndOfARun : ∃ t, stepOn board (running .direct gaussReady) = .next t :=
  ⟨_, rfl⟩

/-- An address outside both regions, one inside the source, and one inside the destination. -/
theorem witness_HostMemoryAccess :
    let s := running .direct gaussReady
    s.mem.wf = true ∧ memOk board (0x101B#32).toNat = true ∧ memOk board (0x1000#32).toNat = true ∧
      memOk board (0x2000#32).toNat = true ∧
      Sys2Proof.Machine.ordinary board 0x101B = true ∧ board.coherent = true ∧
      ∃ j, s.job = some j ∧ ¬inJobDest j 0x101B ∧ inJobSource j 0x1000 ∧ inJobDest j 0x2000 :=
  ⟨by decide, by decide, by decide, by decide, by decide, by decide, _, rfl, by decide, by decide, by decide⟩

theorem witness_UnbackedHostAccess : memOk board (0x5000#32).toNat = false := by decide

theorem witness_CacheDutiesRestoreVisibility :
    let s : State := { gaussReady with dirty := [0x1000], stale := [0x2000] }
    let p := incoherent
    (∀ a, inSource s a → 0x1000 ≤ a ∧ a < 0x1000 + 27) ∧ s.busy = false ∧
      memOk p (0x2000#32).toNat = true ∧ Sys2Proof.Machine.ordinary p (0x2000#32).toNat = true ∧
      p.coherent = false ∧ (0x2000 ≤ (0x2000#32).toNat ∧ (0x2000#32).toNat < 0x2000 + 27) ∧
      s.mem.wf = true ∧ 0x2000 ∉ s.dirty :=
  ⟨fun _ h => h, by decide, by decide, by decide, by decide, by decide, by decide, by decide⟩

theorem witness_SetkLoadsTheKernel :
    let s : State := { idle with agenda := (ScriptLine.setk #v[1, 0, -1, 2, 0, -2, 1, 0, -128]).moves board ++ [] }
    board.wf = true ∧ s.rstLow = false ∧
      s.agenda = (ScriptLine.setk #v[1, 0, -1, 2, 0, -2, 1, 0, -128]).moves board ++ [] :=
  ⟨by decide, rfl, rfl⟩

theorem witness_PowerOnReset :
    let s := powerOnReset board idle
    (∃ t, s.rstLow = true ∧ s.atReset ∧ stepOn board s = .next t) ∧
      ({ idle with agenda := [.rstAssert, .rstRelease] } : State).agenda = .rstAssert :: .rstRelease :: [] :=
  ⟨⟨_, rfl, ⟨rfl, rfl, rfl, rfl⟩, rfl⟩, rfl⟩

/-- An error at validation, and BUS_ERROR at completion. -/
theorem witness_ErrorsAriseAtTwoPoints :
    (∃ t, stepOn board { idle with agenda := [cmdWrite 0x00000006#32] } = .next t ∧ t.regs.status.err = true) ∧
      ∃ t, stepOn bare (running .copy gaussReady) = .next t ∧ t.regs.status.err = true :=
  ⟨⟨_, rfl, by decide⟩, ⟨_, rfl, by decide⟩⟩

/-- OVF set by a dropped NOP, and cleared by a write of 8 to STATUS. -/
theorem witness_OverrunIsSticky :
    (∃ t, stepOn board { running .direct gaussReady with agenda := [cmdWrite 0#32] } = .next t ∧
      (running .direct gaussReady).regs.status.ovf = false ∧ t.regs.status.ovf = true) ∧
    ∃ t, stepOn board { withStatus true false true .none with agenda := [.reg 32 0x10#8 (.write 8#32)] } = .next t ∧
      (withStatus true false true .none).regs.status.ovf = true ∧ t.regs.status.ovf = false :=
  ⟨⟨_, rfl, by decide, by decide⟩, ⟨_, rfl, by decide, by decide⟩⟩

theorem witness_BusyRisesOnlyAtAcceptance :
    (∃ t, gaussReady.busy = false ∧ stepOn board (queued 0x00000002#32) = .next t ∧ t.busy = true) ∧
      ∃ t, (running .lut gaussReady).busy = true ∧ stepOn board (running .lut gaussReady) = .next t ∧ t.busy = false :=
  ⟨⟨_, by decide, rfl, by decide⟩, ⟨_, by decide, rfl, by decide⟩⟩

theorem witness_OnlyTheseMovesChangeMemory :
    ∃ t, stepOn board { idle with agenda := [.memWrite 0x1000#32 1#8] } = .next t ∧ t.mem ≠ idle.mem :=
  ⟨_, rfl, by decide⟩

theorem witness_EveryRunEnds : (running .lut gaussReady).busy = true := by decide

/-- A run in progress, on the board and on the machine's own platform. -/
theorem witness_InvariantKeptByEveryStep :
    let s := running .direct gaussReady
    (∃ t, s.Inv board ∧ stepOn board s = .next t) ∧ ∃ t, s.Inv Config.platform ∧ step s = .next t := by
  have inv : ∀ p, (running .direct gaussReady).Inv p := fun p => by
    refine ⟨by decide, ?_, by decide, ?_, fun h => absurd h (by decide)⟩
    · unfold Status.consistent; decide
    · rintro j ⟨⟩
      rw [Job.valid, firstError_none_iff]
      simp [snapshot, RunMode.planar, RunMode.divides, RunMode.iterates, gaussReady, ready, gauss, imageSize]
      decide
  exact ⟨⟨_, inv _, rfl⟩, ⟨_, inv _, rfl⟩⟩

/-- The port and the bus address of CMD, on the board. -/
theorem witness_ConfigurationIsAParameter :
    (queued 0x00000002#32).rstLow = false ∧ (queued 0x00000002#32).agenda = cmdWrite 0x00000002#32 :: [.engine] ∧
      blockOffset board 0x4000000C#32 = some 0x0C#8 ∧ decode 0x00000002#32 = .ok .runDirect := by
  decide

/-! ### The configuration and the moves that leave it -/

/-- R6 and 93 U25: a change of `mem_ok` is no move, busy or idle. -/
theorem test_remap_stops :
    stepOn board { running .copy gaussReady with agenda := [.remap] } = .fault .memOkChanged ∧
      stepOn board { idle with agenda := [.remap] } = .fault .memOkChanged :=
  ⟨rfl, rfl⟩

/-- R6 and R160: the same state, on two platforms, ends in DONE on one and in BUS_ERROR on the other. -/
theorem test_platform_is_a_parameter :
    statusAfter (stepOn board (running .copy gaussReady)) = some 0x00000002#32 ∧
      statusAfter (stepOn bare (running .copy gaussReady)) = some 0x00000904#32 := by
  decide

/-- Log 17: a `mem` line that runs past 0xFFFFFFFF goes on at 0. -/
theorem test_mem_line_wraps :
    (ScriptLine.mem 0xFFFFFFFF#32 [1#8, 2#8]).moves board = [.memWrite 0xFFFFFFFF#32 1#8, .memWrite 0#32 2#8] := by
  decide

/-- Log 8: on a platform with COHERENT false, a dirty destination byte that the ENGINE writes is no longer dirty, and a
write-back after the run leaves the engine's byte. -/
theorem test_dirty_destination_byte :
    let s := engineTurn incoherent { running .copy (ready vline.kernel 0 edges) with dirty := [0x2000] }
    s.dirty = [] ∧ readByte (cleanCache { base := 0x2000, size := 1 } s).mem 0x2000 = 0x0A#8 := by
  decide

/-- R102 and R72: with no interior pixel the destination is 0 and the run ends in DONE, though the HOST has not written its
source back. -/
theorem test_run_direct_degenerate_unclean :
    let s := ready vline.kernel vline.div (image 0x2000 [7#8, 7#8, 7#8])
    let u := { s with regs := { s.regs with height := 2 }, dirty := [0x1000] }
    let o := stepOn incoherent { u with job := some (snapshot incoherent .direct u) }
    (snapshot incoherent .direct u).unclean = [0x1000] ∧ resultAfter o 0 18 = some (List.replicate 18 0#8) ∧
      statusAfter o = some 0x00000002#32 := by
  decide

/-- R101 and R72: the border is 0, whatever the HOST has not written back. -/
theorem test_run_direct_border_unclean (m : Memory) :
    directByte (snapshot incoherent .direct (queued 0x00000002#32)) m 2 0 1 = 0#8 :=
  directByte_border rfl

end Sys2Proof.Tests
end

section
/-! The arithmetic primitives of 00_scope.md R10: each one by the integer it stands for. -/

namespace Sys2Proof.Machine

/-- Truncation toward zero, by the sign of the dividend; `b = 0` needs no exception, since both quotients are then 0. -/
theorem tdiv_eq_int_tdiv (a : Int) (b : Nat) : tdiv a b = a.tdiv b := by
  rcases Int.lt_trichotomy a 0 with neg | rfl | pos
  · have magnitude : ((a.natAbs / b : Nat) : Int) = (-a).tdiv b := by
      rw [Int.ofNat_tdiv, Int.ofNat_natAbs_of_nonpos neg.le]
    rw [tdiv, Int.sign_eq_neg_one_of_neg neg, magnitude, Int.neg_tdiv, neg_one_mul, neg_neg]
  · simp [tdiv]
  · have magnitude : ((a.natAbs / b : Nat) : Int) = a.tdiv b := by
      rw [Int.ofNat_tdiv, Int.natAbs_of_nonneg pos.le]
    rw [tdiv, Int.sign_eq_one_of_pos pos, magnitude, one_mul]

theorem mul_asr_le (a : Int) (n : Nat) : 2 ^ n * asr a n ≤ a :=
  Int.mul_fdiv_self_le (by positivity)

theorem lt_mul_asr_add_one (a : Int) (n : Nat) : a < 2 ^ n * (asr a n + 1) := by
  rw [mul_add_one]
  exact Int.lt_mul_fdiv_self_add (by positivity)

/-- `lo8` keeps the residue modulo 256 and nothing else. -/
@[simp] theorem lo8_toNat (a : Int) : ((lo8 a).toNat : Int) = a % 256 := by
  rw [lo8, BitVec.toNat_ofInt]
  exact Int.toNat_of_nonneg (Int.emod_nonneg a (by decide))

theorem clamp255_of_neg {a : Int} (neg : a < 0) : clamp255 a = 0#8 := if_pos neg

theorem clamp255_of_gt {a : Int} (big : 255 < a) : clamp255 a = 255#8 := by
  rw [clamp255, if_neg (by omega), if_pos big]

/-- Between the two limits the clamp is the low byte. -/
theorem clamp255_of_byte {a : Int} (nonneg : 0 ≤ a) (small : a ≤ 255) : clamp255 a = lo8 a := by
  rw [clamp255, if_neg (by omega), if_neg (by omega), lo8]

/-- `clamp255` as R10 writes it, one case per limit. -/
theorem clamp255_toNat (a : Int) :
    ((clamp255 a).toNat : Int) = if a < 0 then 0 else if 255 < a then 255 else a := by
  split_ifs with neg big
  · rw [clamp255_of_neg neg]; rfl
  · rw [clamp255_of_gt big]; rfl
  · rw [clamp255_of_byte (by omega) (by omega), lo8_toNat]
    exact Int.emod_eq_of_lt (by omega) (by omega)

/-- The magnitude that R111 takes, by the sign of its argument. -/
theorem natAbs_eq_ite (a : Int) : (a.natAbs : Int) = if a < 0 then -a else a := by
  split_ifs with neg
  · exact Int.ofNat_natAbs_of_nonpos neg.le
  · exact Int.natAbs_of_nonneg (by omega)

/-- Settles O26: each primitive of R10 by its own lemma; the sign form of `tdiv` is its definition, and the floor of
`a / 2^n` is the integer between the two bounds on `asr`. -/
theorem primitivesAreTheSpecs : Obligations.PrimitivesAreTheSpecs :=
  ⟨fun a b _ => ⟨rfl, tdiv_eq_int_tdiv a b⟩, fun a n => ⟨mul_asr_le a n, lt_mul_asr_add_one a n⟩, clamp255_toNat,
    natAbs_eq_ite, lo8_toNat⟩

end Sys2Proof.Machine
end

section
/-! Register accesses by the HOST (10_state.md R17 to R43): reads at the port and by bus address, malformed accesses,
and the acknowledgement of STATUS. -/

namespace Sys2Proof.Machine

open Sys2Proof.Spec (runOn)

variable {p : Platform} {s : State}

/-! ### The form of an access -/

theorem legalAccess_iff {bits : Nat} {o : BitVec 8} : legalAccess bits o = true ↔ bits = 32 ∧ o.toNat % 4 = 0 := by
  rw [legalAccess, Bool.and_eq_true, beq_iff_eq, beq_iff_eq]

theorem regPort_malformed {bits : Nat} {o : BitVec 8} (malformed : ¬(bits = 32 ∧ o.toNat % 4 = 0)) (op : RegOp)
    (s : State) : regPort p bits o op s = .next (answer .busError s) := by
  rw [← legalAccess_iff, Bool.not_eq_true] at malformed
  simp [regPort, malformed]

theorem busAccess_regBase (wf : p.wf = true) (bits : Nat) (o : BitVec 8) (op : RegOp) (s : State) :
    busAccess p bits (p.regBase + o.setWidth 32) op s = regPort p bits o op s := by
  rw [busAccess, blockOffset_regBase wf]

/-! ### Reads -/

/-- A read does not depend on `rst_n`, unlike a write (log 9). -/
theorem regPort_read (r : Reg) (s : State) : regPort p 32 r.offset .read s = .next (readReg p r s) := by
  simp [regPort, legalAccess_offset, accessReg]

/-- CYCLE_LO is the one register whose read has a side effect (R20). -/
theorem readReg_of_ne_cycleLo {r : Reg} (other : r ≠ .cycleLo) (s : State) :
    readReg p r s = answer (.word (regValue p r s)) s := by
  cases r
  case cycleLo => exact absurd rfl other
  all_goals rfl

theorem regPort_read_of_ne_cycleLo {r : Reg} (other : r ≠ .cycleLo) (s : State) :
    regPort p 32 r.offset .read s = .next (answer (.word (regValue p r s)) s) := by
  rw [regPort_read, readReg_of_ne_cycleLo other]

@[simp] theorem readReg_regs (r : Reg) : (readReg p r s).regs = s.regs := by simp [readReg]
@[simp] theorem readReg_cycle (r : Reg) : (readReg p r s).cycle = s.cycle := by simp [readReg]
@[simp] theorem readReg_job (r : Reg) : (readReg p r s).job = s.job := by simp [readReg]
@[simp] theorem readReg_mem (r : Reg) : (readReg p r s).mem = s.mem := by simp [readReg]
@[simp] theorem readReg_agenda (r : Reg) : (readReg p r s).agenda = s.agenda := by simp [readReg]
@[simp] theorem readReg_resp (r : Reg) : (readReg p r s).resp = .word (regValue p r s) := by simp [readReg]

/-- A read of CYCLE_LO latches the upper half of CYCLE (R41). -/
@[simp] theorem readReg_cycleLo_cycleHi : (readReg p .cycleLo s).cycleHi = s.cycle.extractLsb' 32 32 := rfl

@[simp] theorem readReg_cycleHi_cycleHi : (readReg p .cycleHi s).cycleHi = s.cycleHi := rfl

/-- `rd REG` as a step (30_encoding.md R81): the register is read once the move has left the agenda. -/
theorem stepOn_busRead (wf : p.wf = true) {r : Reg} {rest : List Event} (next : s.agenda = busRead p r :: rest) :
    stepOn p s = .next (readReg p r (arrive rest s)) :=
  calc stepOn p s
    _ = perform p (busRead p r) (arrive rest s) := stepOn_cons next
    _ = regPort p 32 r.offset .read (arrive rest s) := busAccess_regBase wf ..
    _ = .next (readReg p r (arrive rest s)) := regPort_read ..

theorem runOn_succ_of_step {t : State} (first : stepOn p s = .next t) (n : Nat) : runOn p (n + 1) s = runOn p n t := by
  simp only [runOn, Host.Core.run, first]

/-! ### The acknowledgement -/

/-- R31 flag by flag: a 1 clears, a 0 keeps. -/
theorem acknowledge_eq_clear (v : Word) (s : State) :
    acknowledge v s =
      { s with
        regs := { s.regs with
          status :=
            { done := if v[1] then false else s.regs.status.done
              err := if v[2] then false else s.regs.status.err
              ovf := if v[3] then false else s.regs.status.ovf
              errcode := if v[2] then .none else s.regs.status.errcode } } } := by
  simp [acknowledge, Bool.and_comm]

/-! ### The statements -/

/-- Settles O42: the read of CYCLE_LO latches the upper half, time before the second read moves CYCLE and not the
shadow, so the read of CYCLE_HI answers the latched half. -/
theorem snapIsOneReadingOfCycle : Obligations.SnapIsOneReadingOfCycle := by
  intro p s rest wf _ agenda
  let t := readReg p .cycleLo (arrive (busRead p .cycleHi :: rest) s)
  let u := readReg p .cycleHi (arrive rest t)
  have first : stepOn p s = .next t := stepOn_busRead wf agenda
  have second : stepOn p t = .next u := stepOn_busRead wf (by simp [t])
  have lower : t.resp = .word (t.cycle.extractLsb' 0 32) := by simp [t, regValue]
  have shadow : u.cycleHi = t.cycle.extractLsb' 32 32 := by simp [u, t]
  have upper : u.resp = .word (t.cycle.extractLsb' 32 32) := by simp [u, t, regValue]
  have halves : t.cycle.extractLsb' 32 32 ++ t.cycle.extractLsb' 0 32 = t.cycle := BitVec.extractLsb'_append_extractLsb'
  refine ⟨t, u, _, _, runOn_succ_of_step first 0, (runOn_succ_of_step first 1).trans (runOn_succ_of_step second 0),
    lower, upper, halves, shadow, ?_⟩
  simp [u, t]

/-- Settles O33: an access is malformed or legal by its form alone, and the block does not wrap. -/
theorem malformedAccessHasNoEffect : Obligations.MalformedAccessHasNoEffect :=
  ⟨fun _ s _ _ op malformed => regPort_malformed malformed op s,
    fun _ s bits o op wf => busAccess_regBase wf bits o op s, fun r => (legalAccess_iff.1 (legalAccess_offset r)).2⟩

/-- Settles O35: four reads other than that of CYCLE_LO, of registers that hold no state. -/
theorem identificationRegisters : Obligations.IdentificationRegisters := fun _ s =>
  ⟨regPort_read_of_ne_cycleLo (r := .id) (by decide) s, regPort_read_of_ne_cycleLo (r := .cap) (by decide) s,
    regPort_read_of_ne_cycleLo (r := .maxpix) (by decide) s, regPort_read_of_ne_cycleLo (r := .cmd) (by decide) s⟩

/-- Settles O38: a write to STATUS with `rst_n` high is the acknowledgement. -/
theorem statusWriteOneClears : Obligations.StatusWriteOneClears := by
  intro p s v high
  have write : regPort p 32 Reg.status.offset (.write v) s = .next (acknowledge v (answer .ack s)) := by
    rw [regPort_register _ _ high]
    exact writeReg_store (by decide) v s
  exact ⟨_, write, acknowledge_eq_clear v (answer .ack s), rfl⟩

end Sys2Proof.Machine
end

section
/-! Encoding (30_encoding.md R75 to R79, R88): the decoder by the opcode map and by the fields of the word, and what an
ILLEGAL or a dropped word does. -/

namespace Sys2Proof

variable {w : Word} {i : Instr}

/-! ### The fields of a word -/

theorem argField_eq_div_mod (w : Word) : argField w = w.toNat / 256 % 256 := by
  simp [argField, Nat.shiftRight_eq_div_pow]

@[simp] theorem and_fullMask (w : Word) : w &&& 0xFFFFFFFF#32 = w := BitVec.and_allOnes

/-- A word lies in the row of LOAD_PRESET by its OPCODE and RSVD alone: the mask keeps the upper half of the word and,
of the lower half, the low byte. -/
theorem and_loadPresetMask_eq_one_iff :
    w &&& 0xFFFF00FF#32 = 0x00000001#32 ↔ w.toNat % 256 = 1 ∧ w.toNat / 65536 = 0 := by
  have upper : (w &&& 0xFFFF00FF#32).toNat / 2 ^ 16 = w.toNat / 2 ^ 16 := by
    rw [BitVec.toNat_and, Nat.and_div_two_pow]
    exact Nat.and_two_pow_sub_one_of_lt_two_pow (n := 16) (by omega)
  have lower : (w &&& 0xFFFF00FF#32).toNat % 2 ^ 16 = w.toNat % 2 ^ 16 % 2 ^ 8 := by
    rw [BitVec.toNat_and, Nat.and_mod_two_pow]
    exact Nat.and_two_pow_sub_one_eq_mod _ 8
  rw [← BitVec.toNat_inj, BitVec.toNat_ofNat]
  omega

/-! ### The decoder -/

/-- Two rows that cover one word are the same row (R78). -/
theorem opcodeRow_unique {r r' : OpcodeRow} (mem : r ∈ opcodeMap) (mem' : r' ∈ opcodeMap) (covers : r.covers w = true)
    (covers' : r'.covers w = true) : r = r' := by
  have : Std.Symm fun a b : OpcodeRow => ∀ v, ¬(a.covers v = true ∧ b.covers v = true) :=
    ⟨fun _ _ disjoint v both => disjoint v both.symm⟩
  by_contra ne
  exact Laws.opcodeMap_disjoint.forall mem mem' ne w ⟨covers, covers'⟩

/-- A word is the command of every row that covers it: the first such row is the only one (R78). -/
theorem decode_eq_ok_iff :
    decode w = .ok i ↔ ∃ r ∈ opcodeMap, r.covers w = true ∧ r.build (argField w) = i := by
  unfold decode
  split
  case h_1 r found =>
    have mem := List.mem_of_find?_eq_some found
    have covers := List.find?_some found
    constructor
    · exact fun h => ⟨r, mem, covers, Except.ok.inj h⟩
    · rintro ⟨r', mem', covers', rfl⟩
      rw [opcodeRow_unique mem mem' covers covers']
  case h_2 notFound =>
    have uncovered := List.find?_eq_none.1 notFound
    exact ⟨nofun, fun ⟨r, mem, covers, _⟩ => absurd covers (uncovered r mem)⟩

/-- A word is ILLEGAL exactly when no row covers it (R78). -/
theorem decode_eq_error_iff : (∃ k, decode w = .error k) ↔ ∀ r ∈ opcodeMap, ¬r.covers w = true := by
  rw [← List.find?_eq_none, decode]
  split
  case h_1 r found => simp [found]
  case h_2 notFound => simp [notFound]

/-- LOAD_PRESET is the one command whose row leaves a field of the word free. -/
theorem decode_eq_loadPreset_iff {id : Nat} :
    decode w = .ok (.loadPreset id) ↔ w &&& 0xFFFF00FF#32 = 0x00000001#32 ∧ id = w.toNat / 256 % 256 := by
  rw [decode_eq_ok_iff, ← argField_eq_div_mod, @eq_comm _ id]
  simp [opcodeMap, OpcodeRow.covers]

/-- SOFT_RESET has one word, since its mask is all ones. -/
theorem decode_eq_softReset_iff : decode w = .ok .softReset ↔ w = 0x00000005#32 := by
  simp [decode_eq_ok_iff, opcodeMap, OpcodeRow.covers]

/-- Settles O3: each command is built by one row of the map. -/
theorem decodeFollowsTheOpcodeMap : Obligations.DecodeFollowsTheOpcodeMap := by
  intro w
  have total : (∃ i, decode w = .ok i) ∨ ∃ k, decode w = .error k := by
    cases decode w with
    | ok i => exact .inl ⟨i, rfl⟩
    | error k => exact .inr ⟨k, rfl⟩
  refine ⟨?_, fun id => decode_eq_loadPreset_iff, ?_, ?_, ?_, ?_, total⟩
  all_goals simp [decode_eq_ok_iff, opcodeMap, OpcodeRow.covers]

/-- The three kinds of ILLEGAL word (R79), by the fields. -/
theorem decode_eq_error_iff_fields :
    (∃ k, decode w = .error k) ↔
      6 ≤ w.toNat % 256 ∨ w.toNat / 65536 ≠ 0 ∨ (w.toNat / 256 % 256 ≠ 0 ∧ w.toNat % 256 ≠ 1) := by
  have uncovered : (∀ r ∈ opcodeMap, ¬r.covers w = true) ↔
      w ≠ 0#32 ∧ ¬w &&& 0xFFFF00FF#32 = 1#32 ∧ w ≠ 2#32 ∧ w ≠ 3#32 ∧ w ≠ 4#32 ∧ w ≠ 5#32 := by
    simp [opcodeMap, OpcodeRow.covers]
  rw [decode_eq_error_iff, uncovered, and_loadPresetMask_eq_one_iff]
  bv_omega

/-- The word of LOAD_PRESET with a given ARG is not ILLEGAL, whatever the ARG. -/
theorem decode_loadPreset_word {id : Nat} (fits : id < 256) :
    decode (BitVec.ofNat 32 (256 * id + 1)) = .ok (.loadPreset id) := by
  have value : (BitVec.ofNat 32 (256 * id + 1)).toNat = 256 * id + 1 := by
    rw [BitVec.toNat_ofNat]; omega
  rw [decode_eq_loadPreset_iff, and_loadPresetMask_eq_one_iff, value]
  omega

end Sys2Proof

namespace Sys2Proof.Machine

open Sys2Proof.Spec (ended dropped)

variable {p : Platform} {s : State} {w : Word}

theorem whenIdle_eq_dropped {body : State → State} (busy : s.busy = true) : whenIdle body s = dropped s :=
  whenIdle_busy busy

/-- An error in a CMD write changes STATUS alone, and keeps OVF (R87). -/
theorem raiseError_acceptCommand (idle : s.busy = false) (code : ErrCode) :
    raiseError code (acceptCommand s) = ended s false true code :=
  raiseError_idle (busy_eq_false.1 idle)

theorem deliver_of_ok {i : Instr} (h : decode w = .ok i) (s : State) : deliver p w s = execOn p i s := by
  simp only [deliver, h]

theorem deliver_of_error {k : Illegal} (h : decode w = .error k) (s : State) :
    deliver p w s = .next (whenIdle (raiseError .badCommand) s) := by
  simp only [deliver, h]

theorem deliver_illegal_idle {k : Illegal} (h : decode w = .error k) (idle : s.busy = false) :
    deliver p w s = .next (ended s false true .badCommand) := by
  rw [deliver_of_error h, whenIdle_idle idle, raiseError_acceptCommand idle]

/-- An id past the end of the preset table (40_filter_table.md R95). -/
theorem loadPresetBody_unknown {id : Nat} (unknown : 3 ≤ id) (s : State) :
    loadPresetBody id s = raiseError .unknownFilter s := by
  have absent : presetTable[id]? = none := List.getElem?_eq_none unknown
  simp only [loadPresetBody, absent]

theorem execOn_loadPreset_unknown {id : Nat} (unknown : 3 ≤ id) (idle : s.busy = false) :
    execOn p (.loadPreset id) s = .next (ended s false true .unknownFilter) := by
  rw [execOn, performLoadPreset, whenIdle_idle idle, loadPresetBody_unknown unknown, raiseError_acceptCommand idle]

/-- Settles O4: the three kinds by the fields of the word; idle, the error is raised after acceptance; busy, the word is
dropped; an id above 2 has a row of the opcode map and no entry in the preset table. -/
theorem illegalWordsRaiseBadCommand : Obligations.IllegalWordsRaiseBadCommand := by
  refine ⟨fun w => decode_eq_error_iff_fields, fun p w k s illegal => ⟨deliver_illegal_idle illegal, fun busy => ?_⟩,
    fun p id s unknown fits => ?_⟩
  · rw [deliver_of_error illegal, whenIdle_eq_dropped busy]
  · have word := decode_loadPreset_word (Nat.lt_succ_of_le fits)
    exact ⟨word, fun idle => (deliver_of_ok word s).trans (execOn_loadPreset_unknown unknown idle)⟩

/-- Settles O15: of the outcomes of a CMD write, only a drop and a SOFT_RESET are open to a busy engine, and SOFT_RESET
has one word. -/
theorem busyDropsEveryWordButSoftReset : Obligations.BusyDropsEveryWordButSoftReset := by
  intro p s w busy
  constructor
  · rintro rfl
    exact ⟨deliver_of_ok decode_softReset s, performSoftReset p s, rfl, rfl⟩
  · intro other
    obtain ⟨t, delivered⟩ := deliver_total (p := p) w s
    rcases deliver_cases delivered with ⟨_, _, rfl⟩ | ⟨reset, _⟩ | ⟨idle, _⟩
    · exact delivered
    · exact absurd (decode_eq_softReset_iff.1 reset) other
    · exact absurd (idle.symm.trans busy) Bool.false_ne_true

end Sys2Proof.Machine
end

section
/-! LOAD_PRESET (40_filter_table.md R94, R95): what an entry of the preset table leaves in the state. -/

namespace Sys2Proof.Machine

open Sys2Proof.Spec (dropped ended withEnd)

variable {p : Platform} {s : State}

/-- The state after an entry of the preset table was loaded, with DONE (R95). -/
def presetLoaded (e : Preset) (s : State) : State :=
  { ended s true false .none with
    regs := { withEnd s.regs true false .none with kernel := e.kernel, div := e.div } }

theorem complete_loadKernel_acceptCommand (idle : s.busy = false) (e : Preset) :
    complete (loadKernel e (acceptCommand s)) = presetLoaded e s := by
  have noJob : (loadKernel e (acceptCommand s)).job = none := busy_eq_false.1 idle
  exact complete_idle noJob

theorem loadPresetBody_known {id : Nat} {e : Preset} (known : presetTable[id]? = some e) (s : State) :
    loadPresetBody id s = complete (loadKernel e s) := by
  simp only [loadPresetBody, known]

/-- An id with an entry in the preset table; `execOn_loadPreset_unknown` is the other case. -/
theorem execOn_loadPreset_known {id : Nat} {e : Preset} (known : presetTable[id]? = some e) (idle : s.busy = false) :
    execOn p (.loadPreset id) s = .next (presetLoaded e s) := by
  rw [execOn, performLoadPreset, whenIdle_idle idle, loadPresetBody_known known, complete_loadKernel_acceptCommand idle]

theorem execOn_loadPreset_busy (busy : s.busy = true) (id : Nat) :
    execOn p (.loadPreset id) s = .next (dropped s) := by
  rw [execOn, performLoadPreset, whenIdle_eq_dropped busy]

/-- Settles O10: the table has an entry for the ids 0, 1 and 2 and for no other; the id of a word is its ARG field. -/
theorem loadPresetLoadsTheTable : Obligations.LoadPresetLoadsTheTable := by
  refine ⟨fun s idle => ?_, fun s id busy => ?_, by decide, by decide, by decide, fun w id => ?_⟩
  · simp only [exec_eq_execOn]
    exact ⟨execOn_loadPreset_known (e := gauss) rfl idle, execOn_loadPreset_known (e := vline) rfl idle,
      execOn_loadPreset_known (e := hline) rfl idle, fun id unknown => execOn_loadPreset_unknown unknown idle⟩
  · rw [exec_eq_execOn, execOn_loadPreset_busy busy]
  · rw [decode_eq_loadPreset_iff, ← argField_eq_div_mod, argField]

end Sys2Proof.Machine
end

section
/-! Runs (30_encoding.md R91, R92): the CMD write that accepts a run of any mode, the ENGINE's turn that ends it, and the
image that RUN_DIRECT writes (41_direct_convolve.md R97 to R102). -/

namespace Sys2Proof.Machine

open Sys2Proof.Spec

variable {p : Platform} {s : State} {mode : RunMode} {w : Word} {rest : List Event}

/-! ### Acceptance -/

theorem wraps_eq_false {base n : Nat} (fits : base + n ≤ 2 ^ 32) : wraps base n = false :=
  decide_eq_false (by omega)

theorem overlaps_eq_false {src dst n : Nat} (disjoint : src + n ≤ dst ∨ dst + n ≤ src) : overlaps src dst n = false := by
  rw [overlaps, ← Bool.decide_and]
  exact decide_eq_false (by omega)

/-- The checks of 60_exceptions.md R158 on the registers: the geometry, and the three checks that only some of the run
commands make. -/
theorem snapshot_valid (geometry : Geometry s) (div : mode.divides = true → 0 < s.regs.div.toNat)
    (iter : mode.iterates = true → 0 < s.regs.iter.toNat)
    (capacity : mode.planar = true → W s * H s ≤ p.maxPixels.toNat) : (snapshot p mode s).valid p := by
  have nonzero : ∀ {v : Half}, 0 < v.toNat → v ≠ 0 := by rintro _ pos rfl; exact absurd pos (by decide)
  obtain ⟨width, height, srcFits, dstFits, disjoint⟩ := geometry
  exact firstError_none_iff.2 ⟨⟨width.ne', height.ne'⟩, fun h => nonzero (div h.1) h.2, fun h => nonzero (iter h.1) h.2,
    ⟨wraps_eq_false srcFits, wraps_eq_false dstFits⟩, overlaps_eq_false disjoint,
    fun h => absurd (capacity h.1) (Nat.not_le.2 h.2)⟩

/-- A run command from an idle engine whose registers pass the checks (R91). -/
theorem execOn_run_accepted (idle : s.busy = false) (valid : (snapshot p mode s).valid p) :
    execOn p (runInstr mode) s = .next (accepted s mode (uncleanSource p s)) := by
  have start : startRun p mode (acceptCommand s) = accepted s mode (uncleanSource p s) := by
    have passed : firstError p (snapshot p mode (acceptCommand s)) = none := valid
    rw [startRun, passed]
    rfl
  rw [← (whenIdle_idle idle).trans start]
  cases mode <;> rfl

/-- A CMD write as a step (10_state.md R25): the word is delivered once the move has left the agenda. -/
theorem stepOn_cmdWrite (high : s.rstLow = false) (next : s.agenda = cmdWrite w :: rest) :
    stepOn p s = deliver p w (answer .ack (arrive rest s)) := by
  rw [stepOn_cons next]
  exact regPort_register .cmd (.write w) (by simpa using high)

theorem uncleanSource_arrive : uncleanSource p (arrive rest s) = uncleanSource p s := by simp [uncleanSource]

theorem snapshot_arrive :
    snapshot p mode (arrive rest s) = { snapshot p mode s with startCycle := (arrive rest s).cycle } := by
  simp [snapshot, uncleanSource_arrive]

/-- The job of a run whose CMD write is the next move: the snapshot of the registers, at the cycle of that move. -/
def nextJob (p : Platform) (mode : RunMode) (rest : List Event) (s : State) : Job :=
  { snapshot p mode s with startCycle := (arrive (.engine :: rest) s).cycle }

/-- The state in which the ENGINE's turn finds the machine: the CMD write accepted the run, and time passed. -/
def awaiting (p : Platform) (mode : RunMode) (rest : List Event) (s : State) : State :=
  arrive rest (accepted (answer .ack (arrive (.engine :: rest) s)) mode (uncleanSource p s))

@[simp] theorem awaiting_regs : (awaiting p mode rest s).regs = withEnd s.regs false false .none := by
  simp [awaiting, accepted, ended]

@[simp] theorem awaiting_job : (awaiting p mode rest s).job = some (nextJob p mode rest s) := by
  simp [awaiting, accepted, nextJob, snapshot]

@[simp] theorem awaiting_mem : (awaiting p mode rest s).mem = s.mem := by simp [awaiting, accepted, ended]

@[simp] theorem awaiting_cycleHi : (awaiting p mode rest s).cycleHi = s.cycleHi := by simp [awaiting, accepted, ended]

/-- The two moves of a run: its word is accepted, and the ENGINE has its turn. -/
theorem runOn_run (ready : RunReady p s w rest) (word : decode w = .ok (runInstr mode))
    (valid : (snapshot p mode s).valid p) : runOn p 2 s = .next (engineTurn p (awaiting p mode rest s)) := by
  let a := answer .ack (arrive (.engine :: rest) s)
  have idle : a.busy = false := by simpa [a] using ready.idle
  have passed : (snapshot p mode a).valid p := by
    have same : snapshot p mode a = nextJob p mode rest s := snapshot_arrive
    rw [same]
    exact valid
  have unclean : uncleanSource p a = uncleanSource p s := uncleanSource_arrive
  have first : stepOn p s = .next (accepted a mode (uncleanSource p s)) := by
    rw [stepOn_cmdWrite ready.running ready.agenda, deliver_of_ok word, execOn_run_accepted idle passed, unclean]
  have agenda : (accepted a mode (uncleanSource p s)).agenda = .engine :: rest := arrive_agenda _ _
  have second : stepOn p (accepted a mode (uncleanSource p s)) = .next (engineTurn p (awaiting p mode rest s)) :=
    stepOn_cons agenda
  exact (runOn_succ_of_step first 1).trans (runOn_succ_of_step second 0)

/-! ### The ENGINE's turn -/

theorem holds_nextJob_source {a : Nat} : holds (nextJob p mode rest s).source a = true ↔ inSource s a := holds_iff

theorem holds_nextJob_dest {a : Nat} : holds (nextJob p mode rest s).dest a = true ↔ inDest s a := holds_iff

theorem regionsBacked_nextJob (duties : Duties p s) : regionsBacked p (nextJob p mode rest s) = true := by
  rw [regionsBacked_iff]
  simpa only [holds_nextJob_source, holds_nextJob_dest] using duties.backed

theorem resultUnspecified_nextJob (duties : Duties p s) : resultUnspecified p (nextJob p mode rest s) = false := by
  have source : allIn (nextJob p mode rest s).source (ordinary p) = true :=
    allIn_iff.2 fun a lo hi => duties.ordinary a (.inl ⟨lo, hi⟩)
  have dest : allIn (nextJob p mode rest s).dest (ordinary p) = true :=
    allIn_iff.2 fun a lo hi => duties.ordinary a (.inr ⟨lo, hi⟩)
  rw [resultUnspecified, source, dest]
  rfl

/-- With both HOST duties kept, the ENGINE's turn writes the result image (R92). -/
theorem engineTurn_awaiting (mode : RunMode) (rest : List Event) (duties : Duties p s) :
    engineTurn p (awaiting p mode rest s) =
      complete (writeResult p (nextJob p mode rest s) (awaiting p mode rest s)) := by
  simp [engineTurn, completeRun, regionsBacked_nextJob duties, resultUnspecified_nextJob duties]

/-- The end of a run in DONE (R89). -/
theorem complete_regs_running {j : Job} (running : s.job = some j) :
    (complete s).regs =
      { s.regs with
        status := { s.regs.status with done := true }
        opcyc := endCycle j.startCycle s.cycle - j.startCycle } := by
  simp [complete, endRun, running]

/-- The source as the ENGINE's turn reads it. -/
def runSource (p : Platform) (mode : RunMode) (rest : List Event) (s : State) : Memory :=
  sourceView (nextJob p mode rest s) (awaiting p mode rest s)

theorem readByte_runSource (wf : s.mem.wf = true) (duties : Duties p s) {a : Nat} (seen : visible p s a) :
    readByte (runSource p mode rest s) a = readByte s.mem a := by
  have clean : a ∉ (nextJob p mode rest s).unclean := by
    intro unclean
    obtain ⟨incoherent, dirty, _⟩ := mem_uncleanSource.1 unclean
    rcases seen with coherent | notDirty
    · exact absurd (coherent.symm.trans incoherent) (by decide)
    · exact notDirty dirty
  rw [runSource, readByte_sourceView_clean (by simpa using wf) (regionsBacked_nextJob duties) clean, awaiting_mem]

/-- Memory after a run: the result image in the destination, and every other byte as before (20_memory.md R51, R54). -/
theorem readByte_engineTurn_awaiting (wf : s.mem.wf = true) (duties : Duties p s) (a : Nat) :
    readByte (engineTurn p (awaiting p mode rest s)).mem a =
      if inDest s a then resultAt (nextJob p mode rest s) (runSource p mode rest s) (a - s.regs.dstBase.toNat)
      else readByte s.mem a := by
  rw [engineTurn_awaiting mode rest duties, complete_mem,
    readByte_writeResult (by simpa using wf) (regionsBacked_nextJob duties), awaiting_mem]
  exact if_congr holds_nextJob_dest rfl rfl

/-- The frame of a run, whatever its mode. -/
theorem runFrame_engineTurn_awaiting (wf : s.mem.wf = true) (duties : Duties p s) :
    RunFrame s (engineTurn p (awaiting p mode rest s)) := by
  have running :
      (writeResult p (nextJob p mode rest s) (awaiting p mode rest s)).job = some (nextJob p mode rest s) := by simp
  have regs := complete_regs_running running
  rw [← engineTurn_awaiting mode rest duties] at regs
  exact {
    idle := engineTurn_busy _
    registers := by rw [regs]; simp [withEnd]
    opcyc := by rw [regs]; exact endCycle_sub_ne_zero _ _
    shadow := by simp [engineTurn_awaiting mode rest duties]
    outside := fun a out => by rw [readByte_engineTurn_awaiting wf duties, if_neg out] }

/-! ### The result image by pixel -/

theorem pixel_offset_lt {w h x y c : Nat} (hx : x < w) (hy : y < h) (hc : c < 3) :
    3 * (y * w + x) + c < 3 * w * h := by
  have row : y * w + w ≤ w * h := by
    rw [← Nat.succ_mul, Nat.mul_comm w h]
    exact Nat.mul_le_mul_right w hy
  rw [Nat.mul_assoc]
  omega

/-- The image a run writes, pixel by pixel, whatever its mode. -/
theorem pixel_engineTurn_awaiting (wf : s.mem.wf = true) (duties : Duties p s) {x y c : Nat} (hx : x < W s)
    (hy : y < H s) (hc : c < 3) :
    pixel (engineTurn p (awaiting p mode rest s)).mem s.regs.dstBase.toNat (W s) x y c =
      resultByte (nextJob p mode rest s) (runSource p mode rest s) x y c := by
  have offset : 3 * (y * W s + x) + c < bytes s := pixel_offset_lt hx hy hc
  have inside : inDest s (s.regs.dstBase.toNat + 3 * (y * W s + x) + c) := ⟨by omega, by omega⟩
  rw [pixel, readByte_engineTurn_awaiting wf duties, if_pos inside, Nat.add_assoc, Nat.add_sub_cancel_left]
  exact resultAt_pixel hx hc

/-! ### RUN_DIRECT -/

theorem weight_kpos (kernel : Kernel) (i j : Fin 3) : weight kernel (kpos i j) = kernelWeight kernel i j := by
  have position : 3 * i.val + j.val < kernel.toList.length := by rw [Vector.length_toList]; omega
  rw [kernelWeight, List.getD_eq_getElem _ _ position, Vector.getElem_toList]
  rfl

theorem sum3_sum3_eq_nineTerms (t : Nat → Nat → Int) : (sum3 fun i => sum3 fun j => t i j) = nineTerms t := by
  simp only [sum3, nineTerms, ← add_assoc]
  rfl

/-- The sum of R99. -/
theorem directAcc_eq_directSum (job : Job) (m : Memory) (x y c : Nat) :
    directAcc job m x y c =
      directSum job.kernel (fun x' y' => seenPixel (readByte m) job.srcBase.toNat job.width.toNat x' y' c) x y := by
  simp only [directAcc, weight_kpos]
  exact sum3_sum3_eq_nineTerms fun i j =>
    kernelWeight job.kernel i j * ((srcByte job m (x + j - 1) (y + i - 1) c).toNat : Int)

theorem clamp255_toNat_eq_max_min (a : Int) : ((clamp255 a).toNat : Int) = max 0 (min 255 a) := by
  rw [clamp255_toNat]
  split_ifs <;> omega

/-- `out(x, y, c)` of RUN_DIRECT: R99 and R100 in the interior, R101 on the border. -/
theorem directByte_toNat (job : Job) (m : Memory) (x y c : Nat) :
    ((directByte job m x y c).toNat : Int) =
      if isInterior job.width.toNat job.height.toNat x y then
        directResult job.kernel job.div.toNat
          (fun x' y' => seenPixel (readByte m) job.srcBase.toNat job.width.toNat x' y' c) x y
      else 0 := by
  split_ifs with inner
  · rw [directByte, if_pos (interior_iff.2 inner), clamp255_toNat_eq_max_min, tdiv_eq_int_tdiv, directAcc_eq_directSum]
    rfl
  · rw [directByte_border (Bool.eq_false_iff.2 fun h => inner (interior_iff.1 h))]
    rfl

/-- Settles O18: the registers pass the checks RUN_DIRECT makes, so the two moves are acceptance and a completion step
that writes the result; `v` is the source as that step reads it. -/
theorem runDirectWritesTheFilteredImage : Obligations.RunDirectWritesTheFilteredImage := by
  intro p s rest ready div
  have valid : (snapshot p .direct s).valid p := snapshot_valid ready.geometry (fun _ => div) nofun nofun
  refine ⟨_, readByte (runSource p .direct rest s), runOn_run ready (by decide) valid,
    runFrame_engineTurn_awaiting ready.memory ready.duties, fun a => readByte_runSource ready.memory ready.duties,
    fun x y c hx hy hc => ?_⟩
  rw [pixel_engineTurn_awaiting ready.memory ready.duties hx hy hc]
  exact directByte_toNat (nextJob p .direct rest s) ..

end Sys2Proof.Machine
end

section
/-! RUN_LUT and RUN_COPY (42_lut_convolve.md R106 to R116): the planes by pixel, and the two images that the planar
commands write. -/

namespace Sys2Proof.Machine

open Sys2Proof.Spec

variable {p : Platform} {s : State} {rest : List Event} {job : Job} {m : Memory} {x y c : Nat}

/-! ### The planes by pixel -/

/-- A pass does not read OUT, so from one pass on their number is not seen (R113). -/
theorem lutPasses_eq_one (job : Job) (planes : Planes) :
    ∀ {n : Nat}, 0 < n → lutPasses job planes n = lutPasses job planes 1
  | _ + 1, _ => lutPass_out job planes _ _

/-- The byte of OUT for pixel `(x, y)` after a pass (R111, R112). -/
theorem lutPass_pixel (planes out : Planes) (hx : x < job.width.toNat) :
    lutPass job planes out c (y * job.width.toNat + x) =
      if interior job.width.toNat job.height.toNat x y then lutPixel job planes c x y else 0#8 := by
  have column : (y * job.width.toNat + x) % job.width.toNat = x := Nat.mul_add_mod_of_lt hx
  have row : (y * job.width.toNat + x) / job.width.toNat = y :=
    Nat.div_eq_of_lt_le (by omega) (by rw [Nat.succ_mul]; omega)
  rw [lutPass, column, row]

/-! ### RUN_LUT -/

/-- A table entry as the truncated quotient of R108. -/
theorem lutEntry_eq_tdiv (job : Job) (i j : Fin 3) (v : Byte) :
    lutEntry job (kpos i j) v = ((v.toNat : Int) * kernelWeight job.kernel i j * 256).tdiv job.div.toNat := by
  rw [lutEntry, tdiv_eq_int_tdiv, weight_kpos]
  rfl

/-- The sum of R110 over the planes of the source. Each neighbour of an interior pixel lies in its own row, so its plane
byte is its source byte. -/
theorem lutSum_planarize (inner : isInterior job.width.toNat job.height.toNat x y) :
    lutSum job (planarize job m) c x y =
      lutTotal job.kernel job.div.toNat
        (fun x' y' => seenPixel (readByte m) job.srcBase.toNat job.width.toNat x' y' c) x y := by
  obtain ⟨-, right, -, -⟩ := inner
  have neighbour : ∀ i j : Fin 3,
      planarize job m c ((y + i.val - 1) * job.width.toNat + (x + j.val - 1)) =
        srcByte job m (x + j.val - 1) (y + i.val - 1) c := fun i j => planarize_pixel (by omega)
  simp only [lutSum, neighbour, lutEntry_eq_tdiv]
  exact sum3_sum3_eq_nineTerms fun i j =>
    (((srcByte job m (x + j - 1) (y + i - 1) c).toNat : Int) * kernelWeight job.kernel i j * 256).tdiv job.div.toNat

/-- The shift of R111 is the floor of the quotient by 256. -/
theorem asr_lutScale (a : Int) : asr a lutScale = a / 256 := Int.fdiv_eq_ediv_of_nonneg a (by decide)

/-- `out(x, y, c)` of RUN_LUT: R108, R110 and R111 in the interior, R112 on the border. -/
theorem lutByte_toNat (m : Memory) (y c : Nat) (iter : 0 < job.iter.toNat) (hx : x < job.width.toNat) :
    ((lutByte job m x y c).toNat : Int) =
      if isInterior job.width.toNat job.height.toNat x y then
        lutResult job.kernel job.div.toNat
          (fun x' y' => seenPixel (readByte m) job.srcBase.toNat job.width.toNat x' y' c) x y
      else 0 := by
  rw [lutByte, interleave, lutPasses_eq_one _ _ iter, lutPasses, lutPass_pixel _ _ hx]
  split_ifs with computed inner inner
  · rw [lutPixel, lo8_toNat, asr_lutScale, lutSum_planarize inner, Int.natCast_natAbs, lutResult]
  · exact absurd (interior_iff.1 computed) inner
  · exact absurd (interior_iff.2 inner) computed
  · rfl

/-- Settles O19: the registers pass the checks RUN_LUT makes, so the two moves are acceptance and a completion step that
writes the result; `v` is the source as that step reads it. -/
theorem runLutWritesTheScaledImage : Obligations.RunLutWritesTheScaledImage := by
  intro p s rest ready div iter capacity
  have valid : (snapshot p .lut s).valid p :=
    snapshot_valid ready.geometry (fun _ => div) (fun _ => iter) (fun _ => capacity)
  refine ⟨_, readByte (runSource p .lut rest s), runOn_run ready (by decide) valid,
    runFrame_engineTurn_awaiting ready.memory ready.duties, fun a => readByte_runSource ready.memory ready.duties,
    fun x y c hx hy hc => ?_⟩
  rw [pixel_engineTurn_awaiting ready.memory ready.duties hx hy hc]
  exact lutByte_toNat (job := nextJob p .lut rest s) _ _ _ iter hx

/-! ### RUN_COPY -/

/-- `out(x, y, c)` of RUN_COPY is the source byte (R115). -/
theorem copyByte_eq_srcByte (hx : x < job.width.toNat) : copyByte job m x y c = srcByte job m x y c :=
  planarize_pixel hx

/-- The copy by offset: the result image of RUN_COPY is the source region (R116). -/
theorem resultAt_copy (copies : job.mode = .copy) {o : Nat} (inside : o < imageSize job.width.toNat job.height.toNat) :
    resultAt job m o = readByte m (job.srcBase.toNat + o) := by
  obtain ⟨column, -, -, offset⟩ := pixel_of_offset inside
  rw [resultAt, resultByte, copies]
  simp only [copyByte_eq_srcByte column, srcByte, addr, Nat.add_assoc, offset]

/-- Settles O20: whatever DIV, ITER and the kernel hold, the registers pass the checks RUN_COPY makes; the completion
step copies the source, which lies outside the destination and so stands as it was. -/
theorem runCopyIsAnExactRoundTrip : Obligations.RunCopyIsAnExactRoundTrip := by
  intro p s rest ready capacity
  have valid : (snapshot p .copy s).valid p := snapshot_valid ready.geometry nofun nofun fun _ => capacity
  refine ⟨_, runOn_run ready (by decide) valid, runFrame_engineTurn_awaiting ready.memory ready.duties,
    fun o inside => ?_⟩
  have source : readByte (engineTurn p (awaiting p .copy rest s)).mem (s.regs.srcBase.toNat + o) =
      readByte s.mem (s.regs.srcBase.toNat + o) := by
    have disjoint := ready.geometry.disjoint
    rw [readByte_engineTurn_awaiting ready.memory ready.duties, if_neg (by omega)]
  refine ⟨fun seen => ?_, source⟩
  have copied : resultAt (nextJob p .copy rest s) (runSource p .copy rest s) o =
      readByte (runSource p .copy rest s) (s.regs.srcBase.toNat + o) := resultAt_copy rfl inside
  rw [source, readByte_engineTurn_awaiting ready.memory ready.duties, if_pos (by omega), Nat.add_sub_cancel_left,
    copied, readByte_runSource ready.memory ready.duties seen]

end Sys2Proof.Machine
end

section
/-! The control commands (43_control.md R145 to R147): NOP, which completes at once, and SOFT_RESET, which aborts a run
and gives the engine its reset values. -/

namespace Sys2Proof.Machine

open Sys2Proof.Spec (AfterSoftReset dropped ended inJobDest)

variable {p : Platform} {s : State}

/-! ### SOFT_RESET -/

/-- With no run in progress there is nothing to abort. -/
theorem abortRun_idle (idle : s.job = none) : abortRun p s = s := by simp [abortRun, idle]

theorem abortRun_mem_running {j : Job} (running : s.job = some j) : (abortRun p s).mem = (scribbleDest p j s).mem := by
  simp only [abortRun, running]

/-- An aborted run leaves every byte outside its destination region, and every unbacked byte, alone (R146). -/
theorem readByte_abortRun {j : Job} (wf : s.mem.wf = true) (running : s.job = some j) {a : Nat}
    (untouched : ¬inJobDest j a ∨ memOk p a = false) : readByte (abortRun p s).mem a = readByte s.mem a := by
  have outside : holds j.dest a = false ∨ memOk p a = false :=
    untouched.imp_left fun out => Bool.eq_false_iff.2 fun held => out (holds_iff.1 held)
  rw [abortRun_mem_running running, readByte_scribbleDest wf outside]

/-- No flag is set after a reset, so the interrupt line is low (60_exceptions.md R163). -/
@[simp] theorem resetEngine_irq (s : State) : (resetEngine s).irq = false := rfl

@[simp] theorem statusWord_resetEngine (s : State) : statusWord (resetEngine s) = 0#32 := by
  rw [statusWord, State.busy, resetEngine_regs, resetEngine_job]
  decide

/-- ID, CAP and MAXPIX hold no state: they read the same in any two states (10_state.md R22 to R24). -/
theorem regValue_constant {r : Reg} (constant : r ∈ [Reg.id, .cap, .maxpix]) (s t : State) :
    regValue p r t = regValue p r s := by
  simp only [List.mem_cons, List.not_mem_nil, or_false] at constant
  rcases constant with rfl | rfl | rfl <;> rfl

/-- The reset values are `resetEngine`'s; memory is as `abortRun` left it (R146, R147). -/
theorem afterSoftReset_performSoftReset (p : Platform) (wf : s.mem.wf = true) :
    AfterSoftReset p s (performSoftReset p s) where
  registers := rfl
  shadow := rfl
  job := rfl
  cycle := abortRun_cycle s p
  pin := abortRun_rstLow s p
  agenda := abortRun_agenda s p
  line := resetEngine_irq _
  status := statusWord_resetEngine _
  constants := fun _ constant => regValue_constant constant s _
  idleMemory := fun idle => by rw [performSoftReset, resetEngine_mem, abortRun_idle (busy_eq_false.1 idle)]
  memory := fun _ running _ untouched => readByte_abortRun wf running untouched

/-- Settles O17: SOFT_RESET has one word, and on every platform it aborts the run, then resets the engine. -/
theorem softResetRestoresResetValues : Obligations.SoftResetRestoresResetValues := by
  have onEvery (p : Platform) (s : State) (wf : s.mem.wf = true) :
      ∃ t, execOn p .softReset s = .next t ∧ AfterSoftReset p s t :=
    ⟨performSoftReset p s, rfl, afterSoftReset_performSoftReset p wf⟩
  refine ⟨fun w => decode_eq_softReset_iff, fun s wf => ?_, onEvery⟩
  rw [exec_eq_execOn]
  exact onEvery Config.platform s wf

/-! ### NOP -/

/-- NOP when idle: acceptance clears the flags of the last command, and completion sets DONE (R145). -/
theorem execOn_nop_idle (idle : s.busy = false) : execOn p .nop s = .next (ended s true false .none) := by
  have completes : complete (acceptCommand s) = ended s true false .none := complete_idle (busy_eq_false.1 idle)
  rw [execOn, performNop, whenIdle_idle idle, completes]

theorem execOn_nop_busy (busy : s.busy = true) : execOn p .nop s = .next (dropped s) := by
  rw [execOn, performNop, whenIdle_eq_dropped busy]

/-- Settles O9: NOP by the state of the engine; the two near words have a field other than OPCODE set, ARG or RSVD. -/
theorem nopCompletes : Obligations.NopCompletes := by
  simp only [Obligations.NopCompletes, exec_eq_execOn]
  exact ⟨by decide, fun _ => execOn_nop_idle, fun _ => execOn_nop_busy, decode_eq_error_iff_fields.2 (by decide),
    decode_eq_error_iff_fields.2 (by decide), _, execOn_nop_idle rfl, by decide⟩

end Sys2Proof.Machine
end

section
/-! Validation (60_exceptions.md R158): the checks of a run command as the table writes them, and the command that
raises the first of them. -/

namespace Sys2Proof.Machine

open Sys2Proof.Spec

variable {p : Platform} {s : State} {mode : RunMode}

/-! ### The conditions of the checks -/

theorem divides_iff : mode.divides = true ↔ mode ≠ .copy := by cases mode <;> decide

theorem iterates_iff : mode.iterates = true ↔ mode = .lut := by cases mode <;> decide

theorem planar_iff : mode.planar = true ↔ mode ≠ .direct := by cases mode <;> decide

theorem half_eq_zero_iff {v : Half} : v = 0 ↔ v.toNat = 0 := BitVec.toNat_eq

theorem wraps_iff {base n : Nat} : wraps base n = true ↔ 0xFFFFFFFF < base + n - 1 := decide_eq_true_iff

theorem overlaps_iff {src dst n : Nat} : overlaps src dst n = true ↔ src < dst + n ∧ dst < src + n := by
  rw [overlaps, ← Bool.decide_and, decide_eq_true_iff]

/-! ### The first failing check -/

/-- A list of checks reports its head where that fails, and else what the rest reports (R159). -/
theorem firstFailing_cons (code : ErrCode) (fails : Bool) (rest : List (ErrCode × Bool)) :
    (((code, fails) :: rest).find? fun c => c.2).map (fun c => c.1) =
      if fails = true then some code else (rest.find? fun c => c.2).map fun c => c.1 := by
  cases fails <;> rfl

/-- Checks 2 to 7 of R158 on the registers, each by its condition in the table's words. -/
theorem firstError_snapshot (p : Platform) (mode : RunMode) (s : State) :
    firstError p (snapshot p mode s) =
      if W s = 0 ∨ H s = 0 then some .badDims
      else if mode ≠ .copy ∧ s.regs.div.toNat = 0 then some .divZero
      else if mode = .lut ∧ s.regs.iter.toNat = 0 then some .badIter
      else if 0xFFFFFFFF < s.regs.srcBase.toNat + bytes s - 1 ∨ 0xFFFFFFFF < s.regs.dstBase.toNat + bytes s - 1 then
        some .addrRange
      else if s.regs.srcBase.toNat < s.regs.dstBase.toNat + bytes s ∧
          s.regs.dstBase.toNat < s.regs.srcBase.toNat + bytes s then some .overlap
      else if mode ≠ .direct ∧ p.maxPixels.toNat < W s * H s then some .tooLarge
      else none := by
  simp only [firstError, runChecks, firstFailing_cons, List.find?_nil, Option.map_none, Bool.or_eq_true,
    Bool.and_eq_true, beq_iff_eq, decide_eq_true_eq, divides_iff, iterates_iff, planar_iff, half_eq_zero_iff,
    wraps_iff, overlaps_iff]
  rfl

/-- A run command from an idle engine whose registers fail a check (R87, R158). -/
theorem execOn_run_refused {code : ErrCode} (idle : s.busy = false)
    (failed : firstError p (snapshot p mode s) = some code) :
    execOn p (runInstr mode) s = .next (ended s false true code) := by
  have start : startRun p mode (acceptCommand s) = ended s false true code := by
    have failed' : firstError p (snapshot p mode (acceptCommand s)) = some code := failed
    rw [startRun, failed']
    exact raiseError_acceptCommand idle code
  rw [← (whenIdle_idle idle).trans start]
  cases mode <;> rfl

/-- Settles O14: the table's chain of conditions is the first failing check, so each refused branch is that check's
error and the last branch an accepted run. -/
theorem validationReportsTheFirstFailingCheck : Obligations.ValidationReportsTheFirstFailingCheck := by
  refine ⟨exec_eq_execOn, fun p s w k idle illegal => deliver_illegal_idle illegal idle,
    fun p s id idle unknown => execOn_loadPreset_unknown unknown idle,
    fun p s idle => ⟨⟨_, execOn_nop_idle idle, rfl⟩, performSoftReset p s, rfl, rfl⟩, fun p s mode idle => ?_⟩
  have first := firstError_snapshot p mode s
  intro n src dst refused
  split_ifs at first ⊢
  case neg => exact ⟨_, execOn_run_accepted idle first⟩
  all_goals exact execOn_run_refused idle first

end Sys2Proof.Machine
end

section
/-! The moves that reach the register block or BUSY (60_exceptions.md R150): the CMD write, the stored register, the
ENGINE's turn and the power-on reset. -/

namespace Sys2Proof.Machine

open Sys2Proof.Spec

variable {p : Platform} {s t : State}

@[simp] theorem arrive_busy (rest : List Event) (s : State) : (arrive rest s).busy = s.busy :=
  congrArg Option.isSome (arrive_job s rest)

@[simp] theorem invalidateCache_regs (r : Region) (s : State) : (invalidateCache p r s).regs = s.regs := by
  unfold invalidateCache; split <;> simp

@[simp] theorem invalidateCache_job (r : Region) (s : State) : (invalidateCache p r s).job = s.job := by
  unfold invalidateCache; split <;> simp

/-- A race is no end of a run. -/
@[simp] theorem hostWrite_busy (a : Word) (b : Byte) (s : State) : (hostWrite p a b s).busy = s.busy := by
  obtain ⟨-, -, -, job, -⟩ := hostWrite_frame (p := p) a b s
  rw [State.busy, job, noteRace_job, Option.isSome_map]

/-- What a step from `s` to `t` was, as far as the register block and BUSY can tell. -/
inductive StepKind (p : Platform) (s t : State) : Prop where
  /-- A move that reaches neither. -/
  | quiet (regs : t.regs = s.regs) (busy : t.busy = s.busy)
  /-- The ENGINE's turn, which also comes where no move is left (log 1). -/
  | engine (turn : s.agenda = [] ∨ s.agenda.head? = some .engine) (after : t = engineTurn p (arrive s.agenda.tail s))
  /-- A word delivered by a write to CMD. -/
  | command (w : Word) (next : nextIsWrite p s .cmd w)
      (delivered : deliver p w (answer .ack (arrive s.agenda.tail s)) = .next t)
  /-- A write to another register. -/
  | store (r : Reg) (v : Word) (other : r ≠ .cmd) (next : nextIsWrite p s r v)
      (after : t = storeReg r v (answer .ack (arrive s.agenda.tail s)))
  /-- Power-on reset. -/
  | reset (next : s.agenda.head? = some .rstAssert) (after : t = powerOnReset p (arrive s.agenda.tail s))

theorem StepKind.of_unchanged (regs : t.regs = s.regs) (job : t.job = s.job) : StepKind p s t :=
  .quiet regs (congrArg Option.isSome job)

/-- A register access, at the port or by bus address, is a CMD write, a stored register, or quiet. -/
theorem stepKind_of_regPort {bits : Nat} {o : BitVec 8} {op : RegOp}
    (next : ∀ v, bits = 32 → op = .write v → ∀ r : Reg, o = r.offset → nextIsWrite p s r v)
    (access : regPort p bits o op (arrive s.agenda.tail s) = .next t) : StepKind p s t := by
  rcases regPort_cases access with ⟨a, rfl⟩ | ⟨-, rfl⟩ | ⟨-, width, v, write, ⟨cmd, delivered⟩ | ⟨r, other, reg, after⟩⟩
  · exact .of_unchanged (by simp) (by simp)
  · exact .of_unchanged (by simp) (by simp)
  · exact .command v (next v width write .cmd cmd) delivered
  · exact .store r v other (next v width write r reg) after

/-- Every step is of one of these kinds, by its move. -/
theorem stepOn_kind (step : stepOn p s = .next t) : StepKind p s t := by
  cases agenda : s.agenda with
  | nil =>
    rw [stepOn_nil agenda, Host.Outcome.next.injEq] at step
    exact .engine (.inl agenda) (by rw [agenda]; exact step.symm)
  | cons e rest =>
    have head : s.agenda.head? = some e := by rw [agenda]; rfl
    have tail : rest = s.agenda.tail := by rw [agenda]; rfl
    rw [stepOn_cons agenda, tail] at step
    cases e with
    | engine => exact .engine (.inr head) (Host.Outcome.next.inj step).symm
    | rstAssert => exact .reset head (Host.Outcome.next.inj step).symm
    | reg bits o op =>
      refine stepKind_of_regPort (fun v width write r reg => .inl ?_) step
      rw [head, width, write, reg]
    | bus bits a op =>
      rw [perform, busAccess] at step
      split at step
      · rename_i o offset
        refine stepKind_of_regPort (fun v width write r reg => .inr ⟨a, ?_, ?_⟩) step
        · rw [head, width, write]
        · rw [offset, reg]
      · cases step
        exact .of_unchanged (by simp) (by simp)
    | memRead a =>
      obtain ⟨r, d, read⟩ := hostRead_cases (p := p) a (arrive s.agenda.tail s)
      cases step
      rw [read]
      exact .of_unchanged (by simp) (by simp)
    | memWrite a b =>
      obtain ⟨regs, -⟩ := hostWrite_frame (p := p) a b (arrive s.agenda.tail s)
      cases step
      exact .quiet (by rw [regs, arrive_regs]) (by rw [hostWrite_busy, arrive_busy])
    | wait polls =>
      obtain ⟨r, poll⟩ := waitPoll_cases (p := p) polls (arrive s.agenda.tail s)
      cases step
      rw [poll]
      exact .of_unchanged (by simp) (by simp)
    | cacheClean r =>
      cases step
      exact .of_unchanged (by simp) (by simp)
    | cacheInvalidate r =>
      cases step
      exact .of_unchanged (by simp) (by simp)
    | rstRelease =>
      cases step
      exact .of_unchanged (by simp) (by simp)
    | remap => cases step
    | clock hz =>
      rw [perform, setClock] at step
      split at step
      · cases step
        exact .of_unchanged (by simp) (by simp)
      · cases step

end Sys2Proof.Machine
end

section
/-! The two points at which an error arises (60_exceptions.md R152): what each kind of step can leave in ERR and
ERRCODE. -/

namespace Sys2Proof.Machine

variable {p : Platform} {s t : State}

/-- The error after a step is one that stood before it. -/
def ErrStood (s t : State) : Prop := s.regs.status.err = true ∧ t.regs.status.errcode = s.regs.status.errcode

/-- What stood once time had passed and the bus had answered stood before the step, since neither is a register. -/
theorem ErrStood.of_regs_eq {u : State} (stood : ErrStood u t) (same : u.regs = s.regs) : ErrStood s t := by
  rwa [ErrStood, same] at stood

/-- The end of a run sets DONE, or ERR with BUS_ERROR (30_encoding.md R92, R160). -/
theorem completeRun_status (p : Platform) (j : Job) (s : State) :
    (completeRun p j s).regs.status =
      if regionsBacked p j = true then { s.regs.status with done := true }
      else { s.regs.status with err := true, errcode := .busError } := by
  obtain ⟨backed, after⟩ | ⟨backed, -, after⟩ | ⟨backed, -, after⟩ := completeRun_cases (p := p) j s <;>
    simp [after, backed]

/-- The ENGINE's turn raises nothing but BUS_ERROR, and that at the end of a run (R152). -/
theorem engineTurn_err (err : (engineTurn p s).regs.status.err = true) :
    ErrStood s (engineTurn p s) ∨ s.busy = true ∧ (engineTurn p s).regs.status.errcode = .busError := by
  unfold engineTurn at err ⊢
  split at err
  case h_1 idle => exact .inl ⟨err, rfl⟩
  case h_2 j running =>
    rw [ErrStood]
    rw [completeRun_status] at err ⊢
    split_ifs at err ⊢
    · exact .inl ⟨err, rfl⟩
    · exact .inr ⟨by rw [State.busy, running]; rfl, rfl⟩

/-- A CMD write raises an error of validation, and that while idle (R152). -/
theorem deliver_err {w : Word} (delivered : deliver p w s = .next t) (err : t.regs.status.err = true) :
    ErrStood s t ∨ s.busy = false ∧ t.regs.status.errcode ≠ .none ∧ t.regs.status.errcode ≠ .busError := by
  rcases deliver_cases delivered with ⟨-, -, rfl⟩ | ⟨-, rfl⟩ | ⟨idle, done⟩
  · exact .inl ⟨err, rfl⟩
  · exact absurd err Bool.false_ne_true
  rcases done with ⟨-, rfl⟩ | ⟨code, notNone, notBusError, rfl⟩ | ⟨id, e, -, -, rfl⟩ | ⟨mode, i, -, -, -, rfl⟩
  · simp at err
  · exact .inr ⟨idle, by simpa using notNone, by simpa using notBusError⟩
  · simp at err
  · simp at err

/-- A stored register raises nothing: a write to STATUS clears ERR with its code or leaves both (10_state.md R31). -/
theorem storeReg_err {r : Reg} {v : Word} (err : (storeReg r v s).regs.status.err = true) :
    ErrStood s (storeReg r v s) := by
  cases r
  case status =>
    rw [storeReg, acknowledge_eq_clear] at err ⊢
    cases clears : v[2]
    · simpa [ErrStood, clears] using err
    · simp [clears] at err
  all_goals exact ⟨err, rfl⟩

/-- Settles O52: by the kind of the step; only the ENGINE's turn and a CMD write can leave an ERR that did not stand. -/
theorem errorsAriseAtTwoPoints : Obligations.ErrorsAriseAtTwoPoints := by
  intro p s t step err
  cases stepOn_kind step with
  | quiet regs _ => exact .inl ⟨regs ▸ err, by rw [regs]⟩
  | engine turn after =>
    subst after
    rcases engineTurn_err err with stood | ⟨busy, code⟩
    · exact .inl (stood.of_regs_eq (by simp))
    · exact .inr (.inr ⟨by simpa using busy, engineTurn_busy _, code, turn⟩)
  | command w next delivered =>
    rcases deliver_err delivered err with stood | ⟨idle, notNone, notBusError⟩
    · exact .inl (stood.of_regs_eq (by simp))
    · exact .inr (.inl ⟨by simpa using idle, notNone, notBusError, w, next⟩)
  | store r v _ _ after =>
    subst after
    exact .inl ((storeReg_err err).of_regs_eq (by simp))
  | reset _ after =>
    subst after
    exact absurd err Bool.false_ne_true

end Sys2Proof.Machine
end

section
/-! The interrupt line (60_exceptions.md R163). -/

namespace Sys2Proof.Machine

variable {s : State}

/-- A flag drives the line exactly while it is set and enabled (R163). -/
theorem irq_eq_true_iff :
    s.irq = true ↔
      (s.regs.status.done = true ∧ s.regs.irqEn.doneIe = true) ∨
        (s.regs.status.err = true ∧ s.regs.irqEn.errIe = true) ∨
        (s.regs.status.ovf = true ∧ s.regs.irqEn.ovfIe = true) := by
  rw [State.irq, Bool.or_eq_true, Bool.or_eq_true, Bool.and_eq_true, Bool.and_eq_true, Bool.and_eq_true, or_assoc]

/-- Settles O40: the line is a function of the flags and IRQ_EN, and a write to IRQ_EN stores its three bits and leaves
the flags. -/
theorem interruptLine : Obligations.InterruptLine := fun _ => ⟨irq_eq_true_iff, fun _ => rfl⟩

end Sys2Proof.Machine
end

section
/-! Power-on reset (70_reset_and_hazards.md R175): what it shares with SOFT_RESET, and what the moves that come while
`rst_n` is low can do. -/

namespace Sys2Proof.Machine

variable {p : Platform} {s t : State}

/-! ### Assertion -/

theorem powerOnReset_atReset (p : Platform) (s : State) : (powerOnReset p s).atReset := ⟨rfl, rfl, rfl, rfl⟩

/-- SOFT_RESET is power-on reset but for CYCLE and the pin, which it leaves as they were (R146, R175). -/
theorem performSoftReset_eq_powerOnReset (p : Platform) (s : State) :
    performSoftReset p s = { powerOnReset p s with cycle := s.cycle, rstLow := s.rstLow } := by
  rw [← abortRun_cycle s p, ← abortRun_rstLow s p]
  rfl

/-! ### While `rst_n` is low -/

/-- The engine is held in reset: it has its reset values, and `rst_n` is low (R175, R176). -/
def HeldInReset (s : State) : Prop := s.atReset ∧ s.rstLow = true

/-- No time passes in reset (R175). -/
theorem arrive_of_rstLow (low : s.rstLow = true) (rest : List Event) :
    arrive rest s = { s with agenda := rest, resp := .none } := by
  simp [arrive, tick, low]

theorem HeldInReset.after_arrive (held : HeldInReset s) (rest : List Event) : HeldInReset (arrive rest s) := by
  obtain ⟨reset, low⟩ := held
  rw [arrive_of_rstLow low]
  exact ⟨reset, low⟩

/-- With no run in progress the ENGINE's turn does nothing (60_exceptions.md R172). -/
theorem engineTurn_idle (idle : s.job = none) : engineTurn p s = s := by simp only [engineTurn, idle]

theorem HeldInReset.after_engineTurn (held : HeldInReset s) : HeldInReset (engineTurn p s) := by
  obtain ⟨⟨regs, cycle, shadow, idle⟩, low⟩ := held
  rw [engineTurn_idle idle]
  exact ⟨⟨regs, cycle, shadow, idle⟩, low⟩

/-- In reset a write stores nothing, and the shadow that a read of CYCLE_LO latches is half of a CYCLE that is 0
(log 9). -/
theorem HeldInReset.after_regPort {bits : Nat} {o : BitVec 8} {op : RegOp} (held : HeldInReset s)
    (access : regPort p bits o op s = .next t) : HeldInReset t := by
  rcases regPort_cases access with ⟨a, rfl⟩ | ⟨-, rfl⟩ | ⟨high, -⟩
  · exact held
  · obtain ⟨⟨regs, cycle, -, idle⟩, low⟩ := held
    have latched : (readReg p .cycleLo s).cycleHi = 0 := by
      rw [readReg_cycleLo_cycleHi, cycle]
      rfl
    exact ⟨⟨regs, cycle, latched, idle⟩, low⟩
  · obtain ⟨-, low⟩ := held
    exact absurd low (Bool.eq_false_iff.1 high)

theorem HeldInReset.after_hostWrite (held : HeldInReset s) (a : Word) (b : Byte) :
    HeldInReset (hostWrite p a b s) := by
  obtain ⟨⟨regs, cycle, shadow, idle⟩, low⟩ := held
  obtain ⟨sameRegs, sameCycle, sameShadow, sameJob, samePin, -⟩ := hostWrite_frame (p := p) a b s
  have noRace : (noteRace a.toNat s).job = none := by
    rw [noteRace_job, idle]
    rfl
  exact ⟨⟨sameRegs.trans regs, sameCycle.trans cycle, sameShadow.trans shadow, sameJob.trans noRace⟩,
    samePin.trans low⟩

theorem HeldInReset.after_invalidateCache (held : HeldInReset s) (r : Region) :
    HeldInReset (invalidateCache p r s) := by
  unfold invalidateCache
  split <;> exact held

/-- No move but the release of `rst_n` takes the engine out of reset (R175). -/
theorem HeldInReset.after_perform {e : Event} (held : HeldInReset s) (low : e ≠ .rstRelease)
    (move : perform p e s = .next t) : HeldInReset t := by
  cases e with
  | engine =>
    cases move
    exact held.after_engineTurn
  | reg bits o op => exact held.after_regPort move
  | bus bits a op =>
    rw [perform, busAccess] at move
    split at move
    · exact held.after_regPort move
    · cases move
      exact held
  | memRead a =>
    obtain ⟨r, d, read⟩ := hostRead_cases (p := p) a s
    cases move
    rw [read]
    exact held
  | memWrite a b =>
    cases move
    exact held.after_hostWrite a b
  | wait polls =>
    obtain ⟨r, poll⟩ := waitPoll_cases (p := p) polls s
    cases move
    rw [poll]
    exact held
  | cacheClean r =>
    cases move
    exact held
  | cacheInvalidate r =>
    cases move
    exact held.after_invalidateCache r
  | rstAssert =>
    cases move
    exact ⟨powerOnReset_atReset p s, rfl⟩
  | rstRelease => exact absurd rfl low
  | remap => cases move
  | clock hz =>
    rw [perform, setClock] at move
    split at move
    · cases move
      exact held
    · cases move

/-! ### Release -/

/-- The release of `rst_n` raises the pin and changes no register (R175). -/
theorem HeldInReset.release {rest : List Event} (held : HeldInReset s) (next : s.agenda = .rstRelease :: rest) :
    ∃ t, stepOn p s = .next t ∧ t.atReset ∧ t.rstLow = false := by
  obtain ⟨reset, -⟩ := held.after_arrive rest
  exact ⟨_, stepOn_cons next, reset, rfl⟩

/-- A step in reset holds the engine there, or it is the release, which leaves the engine its reset values (R175). -/
theorem HeldInReset.step_cases (held : HeldInReset s) (step : stepOn p s = .next t) :
    HeldInReset t ∨ t.atReset ∧ s.agenda.head? = some .rstRelease := by
  cases agenda : s.agenda with
  | nil =>
    rw [stepOn_nil agenda] at step
    cases step
    exact .inl (held.after_arrive []).after_engineTurn
  | cons e rest =>
    by_cases release : e = .rstRelease
    · subst release
      obtain ⟨u, released, reset, -⟩ := held.release (p := p) agenda
      obtain rfl : u = t := Host.Outcome.next.inj (released.symm.trans step)
      exact .inr ⟨reset, rfl⟩
    · rw [stepOn_cons agenda] at step
      exact .inl ((held.after_arrive rest).after_perform release step)

end Sys2Proof.Machine

namespace Sys2Proof

open Sys2Proof.Machine

/-- Settles O51: assertion gives SOFT_RESET's state with CYCLE 0, a step in reset holds the engine there or is the
release, and assertion with the release after it is both. Protected: the operation is `Machine.powerOnReset`. -/
protected theorem powerOnReset : Obligations.PowerOnReset := by
  refine ⟨fun p s => ⟨powerOnReset_atReset p s, rfl, ?softReset⟩, ?inReset, ?release⟩
  case softReset => exact congrArg Host.Outcome.next (performSoftReset_eq_powerOnReset p s)
  case inReset =>
    intro p s t low reset step
    rcases HeldInReset.step_cases ⟨reset, low⟩ step with ⟨reset, low⟩ | ⟨reset, released⟩
    · exact ⟨reset, .inl low⟩
    · exact ⟨reset, .inr released⟩
  case release =>
    intro p s rest agenda
    let u := Machine.powerOnReset p (arrive (.rstRelease :: rest) s)
    have asserted : stepOn p s = .next u := stepOn_cons agenda
    have held : HeldInReset u := ⟨powerOnReset_atReset p _, rfl⟩
    obtain ⟨t, released, reset, high⟩ := held.release (p := p) (rest := rest) (by simp [u])
    exact ⟨t, (runOn_succ_of_step asserted 1).trans (runOn_succ_of_step released 0), reset, high⟩

end Sys2Proof
end

section
/-! Encoding (30_encoding.md R75 to R78): the encoder and the decoder are inverse to each other on the well-formed
commands. -/

namespace Sys2Proof

variable {w : Word} {i : Instr}

/-- The word of LOAD_PRESET, by its value: the id in ARG, above the OPCODE 1. -/
theorem encode_loadPreset {id : Nat} (fits : id < 256) : encode (.loadPreset id) = BitVec.ofNat 32 (256 * id + 1) := by
  apply BitVec.eq_of_toNat_eq
  have low : (id <<< 8 ||| 1) = 256 * id + 1 := by
    rw [← Nat.shiftLeft_add_eq_or_of_lt (by decide), Nat.shiftLeft_eq, Nat.mul_comm]
  have arg : id % 256 = id := Nat.mod_eq_of_lt fits
  simp only [encode, commandWord, BitVec.toNat_append, BitVec.toNat_ofNat, Nat.reducePow, arg, Nat.zero_mod,
    Nat.zero_shiftLeft, Nat.zero_or, Nat.reduceMod, low]
  omega

/-- Settles O1: the word of a LOAD_PRESET carries its id in ARG; every other command has one fixed word. -/
theorem decodeOfEncodeIsTheCommand : Obligations.DecodeOfEncodeIsTheCommand := by
  intro i wf
  cases i with
  | loadPreset id =>
    have fits : id < 256 := of_decide_eq_true wf
    rw [encode_loadPreset fits, decode_loadPreset_word fits]
  | nop | runDirect | runLut | runCopy | softReset => decide

/-- A word in the row of LOAD_PRESET is the word of its ARG. -/
theorem encode_of_decode_loadPreset {id : Nat} (h : decode w = .ok (.loadPreset id)) :
    encode (.loadPreset id) = w ∧ id < 256 := by
  obtain ⟨row, arg⟩ := decode_eq_loadPreset_iff.1 h
  obtain ⟨opcode, rsvd⟩ := and_loadPresetMask_eq_one_iff.1 row
  have fits : id < 256 := by omega
  refine ⟨?_, fits⟩
  rw [encode_loadPreset fits]
  apply BitVec.eq_of_toNat_eq
  rw [BitVec.toNat_ofNat]
  omega

/-- Settles O2: all rows of the opcode map but that of LOAD_PRESET hold a single word. -/
theorem encodeOfDecodeIsTheWord : Obligations.EncodeOfDecodeIsTheWord := by
  intro w i h
  obtain ⟨nop, -, runDirect, runLut, runCopy, softReset, -⟩ := decodeFollowsTheOpcodeMap w
  simp only [and_fullMask] at nop runDirect runLut runCopy softReset
  cases i with
  | loadPreset id => exact (encode_of_decode_loadPreset h).imp_right decide_eq_true
  | nop => rw [nop.1 h]; decide
  | runDirect => rw [runDirect.1 h]; decide
  | runLut => rw [runLut.1 h]; decide
  | runCopy => rw [runCopy.1 h]; decide
  | softReset => rw [softReset.1 h]; decide

/-- Settles O5: fifteen fixed words, evaluated. -/
theorem sampleWordsDecode : Obligations.SampleWordsDecode := by
  unfold Obligations.SampleWordsDecode
  decide

end Sys2Proof
end

section
/-! Every step as the state it leaves: where `StepKind` tells what a step does to the register block and BUSY,
`StepMove` gives the next state whole. -/

namespace Sys2Proof.Machine

open Sys2Proof.Spec

variable {p : Platform} {s t : State}

/-- The state in which a step's move finds the machine. -/
abbrev arrived (s : State) : State := arrive s.agenda.tail s

/-- What a step from `s` to `t` was, by the operation that gave `t`. -/
inductive StepMove (p : Platform) (s t : State) : Prop where
  /-- The ENGINE's turn, which also comes where no move is left (log 1). -/
  | engine (after : t = engineTurn p (arrived s))
  /-- A word delivered by a write to CMD. -/
  | command (w : Word) (delivered : deliver p w (answer .ack (arrived s)) = .next t)
  /-- A write to another register. -/
  | store (r : Reg) (v : Word) (after : t = storeReg r v (answer .ack (arrived s)))
  /-- Power-on reset. -/
  | reset (next : s.agenda.head? = some .rstAssert) (after : t = powerOnReset p (arrived s))
  /-- `rst_n` goes high. -/
  | release (after : t = { arrived s with rstLow := false })
  /-- A HOST write of system memory. -/
  | memWrite (a : Word) (b : Byte) (next : s.agenda.head? = some (.memWrite a b))
      (after : t = hostWrite p a b (arrived s))
  /-- The HOST invalidates a range in its cache. -/
  | invalidate (r : Region) (next : s.agenda.head? = some (.cacheInvalidate r))
      (after : t = invalidateCache p r (arrived s))
  /-- A poll of `wait`. -/
  | wait (polls : Nat) (next : s.agenda.head? = some (.wait polls)) (after : t = waitPoll p polls (arrived s))
  /-- A move that reaches the bus's answer, the CYCLE_HI shadow, the free values and the HOST's cache at most. -/
  | quiet (resp : Response) (cycleHi : Word) (draws : Nat) (dirty : List Nat)
      (after : t = { arrived s with resp := resp, cycleHi := cycleHi, draws := draws, dirty := dirty })

/-- A register access, at the port or by bus address, as a move. -/
theorem stepMove_of_regPort {bits : Nat} {o : BitVec 8} {op : RegOp}
    (access : regPort p bits o op (arrived s) = .next t) : StepMove p s t := by
  rcases regPort_cases access with ⟨a, rfl⟩ | ⟨-, rfl⟩ | ⟨-, -, v, -, ⟨-, delivered⟩ | ⟨r, -, -, after⟩⟩
  · exact .quiet _ _ _ _ rfl
  · exact .quiet _ _ _ _ rfl
  · exact .command v delivered
  · exact .store r v after

/-- Every step is one of these moves. -/
theorem stepOn_move (step : stepOn p s = .next t) : StepMove p s t := by
  cases agenda : s.agenda with
  | nil =>
    rw [stepOn_nil agenda] at step
    exact .engine (by rw [arrived, agenda]; exact (Host.Outcome.next.inj step).symm)
  | cons e rest =>
    have head : s.agenda.head? = some e := by rw [agenda]; rfl
    have tail : rest = s.agenda.tail := by rw [agenda]; rfl
    rw [stepOn_cons agenda, tail] at step
    cases e with
    | engine => exact .engine (Host.Outcome.next.inj step).symm
    | reg bits o op => exact stepMove_of_regPort step
    | bus bits a op =>
      rw [perform, busAccess] at step
      split at step
      · exact stepMove_of_regPort step
      · exact .quiet _ _ _ _ (Host.Outcome.next.inj step).symm
    | memRead a =>
      obtain ⟨r, d, read⟩ := hostRead_cases (p := p) a (arrived s)
      exact .quiet _ _ _ _ ((Host.Outcome.next.inj step).symm.trans read)
    | memWrite a b => exact .memWrite a b head (Host.Outcome.next.inj step).symm
    | wait polls => exact .wait polls head (Host.Outcome.next.inj step).symm
    | cacheClean r => exact .quiet _ _ _ _ (Host.Outcome.next.inj step).symm
    | cacheInvalidate r => exact .invalidate r head (Host.Outcome.next.inj step).symm
    | rstAssert => exact .reset head (Host.Outcome.next.inj step).symm
    | rstRelease => exact .release (Host.Outcome.next.inj step).symm
    | remap => cases step
    | clock hz =>
      rw [perform, setClock] at step
      split at step
      · exact .quiet _ _ _ _ (Host.Outcome.next.inj step).symm
      · cases step

/-- A word delivered to CMD is that of SOFT_RESET, or its command reaches STATUS, the weights, DIV and the job alone. -/
theorem deliver_reach {w : Word} (delivered : deliver p w s = .next t) :
    t = resetEngine (abortRun p s) ∨
      ∃ status kernel div job,
        t = { s with regs := { s.regs with status := status, kernel := kernel, div := div }, job := job } := by
  rcases deliver_cases delivered with ⟨-, -, after⟩ | ⟨-, after⟩ | ⟨idle, done⟩
  · exact .inr ⟨_, _, _, _, after⟩
  · exact .inl after
  have noJob : (acceptCommand s).job = none := busy_eq_false.1 idle
  right
  rcases done with ⟨-, after⟩ | ⟨code, -, -, after⟩ | ⟨id, e, -, -, after⟩ | ⟨mode, i, -, -, -, after⟩
  · exact ⟨_, _, _, _, after.trans (complete_idle noJob)⟩
  · exact ⟨_, _, _, _, after.trans (raiseError_idle noJob)⟩
  · exact ⟨_, _, _, _, after.trans (complete_loadKernel_acceptCommand idle e)⟩
  · exact ⟨_, _, _, _, after⟩

end Sys2Proof.Machine
end

section
/-! The invariant (10_state.md R28, R30, 30_encoding.md R86, 60_exceptions.md R158, 70_reset_and_hazards.md R175): each
operation keeps what the invariant says of memory, STATUS and the job. -/

namespace Sys2Proof.Machine

variable {p : Platform} {s t : State}

/-- The invariant but for its clause on reset, which `HeldInReset` answers. -/
structure Sound (p : Platform) (s : State) : Prop where
  memory : s.mem.wf = true
  status : s.regs.status.consistent
  running : s.busy = true → s.regs.status.done = false ∧ s.regs.status.err = false
  validated : ∀ j, s.job = some j → j.valid p

theorem State.Inv.sound (inv : s.Inv p) : Sound p s := ⟨inv.memory, inv.status, inv.running, inv.validated⟩

/-- What is sound depends on the form of memory, on STATUS and on the job alone. -/
theorem Sound.congr (sound : Sound p s) (memory : t.mem.wf = true) (status : t.regs.status = s.regs.status)
    (job : t.job = s.job) : Sound p t where
  memory := memory
  status := status ▸ sound.status
  running := by rw [State.busy, job, status]; exact sound.running
  validated := by rw [job]; exact sound.validated

theorem Sound.after_arrive (sound : Sound p s) (rest : List Event) : Sound p (arrive rest s) :=
  sound.congr (by simpa using sound.memory) (by simp) (by simp)

theorem Sound.after_answer (sound : Sound p s) (r : Response) : Sound p (answer r s) :=
  sound.congr sound.memory rfl rfl

/-- With no run in progress, canonical memory and a consistent STATUS are all there is to be sound. -/
theorem Sound.of_idle (memory : s.mem.wf = true) (status : s.regs.status.consistent) (idle : s.job = none) :
    Sound p s where
  memory := memory
  status := status
  running := by simp [idle]
  validated := by simp [idle]

/-! ### STATUS -/

theorem consistent_reset : RegBlock.reset.status.consistent := by simp [Status.consistent, RegBlock.reset]

/-- DONE alone is consistent where ERR was 0. -/
theorem consistent_done {st : Status} (h : st.consistent) (err : st.err = false) :
    Status.consistent { st with done := true } := by
  obtain ⟨-, code⟩ := h
  exact ⟨by simp [err], code⟩

/-- An error with its code is consistent where DONE was 0. -/
theorem consistent_err {st : Status} {code : ErrCode} (done : st.done = false) (named : code ≠ .none) :
    Status.consistent { st with err := true, errcode := code } := by
  simp [Status.consistent, done, named]

/-- OVF takes no part in consistency. -/
theorem consistent_ovf {st : Status} (h : st.consistent) (ovf : Bool) : Status.consistent { st with ovf := ovf } := h

theorem acceptCommand_consistent (s : State) : (acceptCommand s).regs.status.consistent := by
  simp [Status.consistent]

/-- The acknowledgement clears DONE, or ERR with its code, and sets neither (10_state.md R31). -/
theorem acknowledge_consistent (v : Word) (h : s.regs.status.consistent) :
    (acknowledge v s).regs.status.consistent := by
  obtain ⟨exclusive, code⟩ := h
  rw [acknowledge_eq_clear]
  cases clears : v[2] with
  | true => simp [Status.consistent]
  | false =>
    refine ⟨fun ⟨done, err⟩ => exclusive ⟨?_, by simpa [clears] using err⟩, by simpa [clears] using code⟩
    exact (by simpa using done : _ ∧ _).2

/-! ### The operations -/

theorem busy_of_job {j : Job} (running : s.job = some j) : s.busy = true := by rw [State.busy, running]; rfl

theorem Sound.after_engineTurn (sound : Sound p s) : Sound p (engineTurn p s) := by
  cases running : s.job with
  | none => rwa [engineTurn_idle running]
  | some j =>
    obtain ⟨done, err⟩ := sound.running (busy_of_job running)
    refine .of_idle (engineTurn_mem_wf sound.memory) ?_ (busy_eq_false.1 (engineTurn_busy s))
    simp only [engineTurn, running, completeRun_status]
    split
    · exact consistent_done sound.status err
    · exact consistent_err done (by simp)

theorem Sound.after_deliver {w : Word} (sound : Sound p s) (delivered : deliver p w s = .next t) : Sound p t := by
  rcases deliver_cases delivered with ⟨busy, -, rfl⟩ | ⟨-, rfl⟩ | ⟨-, done⟩
  · exact ⟨sound.memory, consistent_ovf sound.status true, sound.running, sound.validated⟩
  · exact .of_idle (abortRun_mem_wf sound.memory) consistent_reset rfl
  rcases done with ⟨-, rfl⟩ | ⟨code, notNone, -, rfl⟩ | ⟨id, e, -, -, rfl⟩ | ⟨mode, i, -, -, valid, rfl⟩
  · exact .of_idle (by simpa using sound.memory) (by simp [Status.consistent]) (by simp)
  · exact .of_idle (by simpa using sound.memory) (by simp [Status.consistent, notNone]) (by simp)
  · exact .of_idle (by simpa using sound.memory) (by simp [Status.consistent]) (by simp)
  · exact ⟨sound.memory, acceptCommand_consistent s, fun _ => ⟨rfl, rfl⟩,
      fun j accepted => Option.some.inj accepted ▸ valid⟩

theorem Sound.after_storeReg (sound : Sound p s) (r : Reg) (v : Word) : Sound p (storeReg r v s) := by
  cases r
  case status =>
    exact ⟨sound.memory, acknowledge_consistent v sound.status,
      fun busy => by simp [storeReg, acknowledge_eq_clear, sound.running busy], sound.validated⟩
  all_goals exact sound.congr sound.memory rfl rfl

/-- The race flag takes no part in validation (R158). -/
theorem Sound.after_hostWrite (sound : Sound p s) (a : Word) (b : Byte) : Sound p (hostWrite p a b s) := by
  obtain ⟨regs, -, -, job, -⟩ := hostWrite_frame (p := p) a b s
  refine ⟨hostWrite_mem_wf sound.memory, regs ▸ sound.status, ?_, ?_⟩
  · rw [hostWrite_busy, regs]
    exact sound.running
  · intro j running
    rw [job, noteRace_job, Option.map_eq_some_iff] at running
    obtain ⟨j', before, rfl⟩ := running
    exact sound.validated j' before

theorem Sound.after_step (sound : Sound p s) (step : stepOn p s = .next t) : Sound p t := by
  have sound : Sound p (arrived s) := sound.after_arrive _
  cases stepOn_move step with
  | engine after => exact after ▸ sound.after_engineTurn
  | command w delivered => exact (sound.after_answer _).after_deliver delivered
  | store r v after => exact after ▸ (sound.after_answer _).after_storeReg r v
  | reset _ after => exact after ▸ .of_idle (abortRun_mem_wf sound.memory) consistent_reset rfl
  | release after => exact after ▸ sound.congr sound.memory rfl rfl
  | memWrite a b _ after => exact after ▸ sound.after_hostWrite a b
  | invalidate r _ after =>
    exact after ▸
      sound.congr (invalidateCache_mem_wf sound.memory) (by rw [invalidateCache_regs]) (invalidateCache_job r _)
  | wait polls _ after =>
    obtain ⟨r, poll⟩ := waitPoll_cases (p := p) polls (arrived s)
    exact (after.trans poll) ▸ sound.congr sound.memory rfl rfl
  | quiet resp cycleHi draws dirty after => exact after ▸ sound.congr sound.memory rfl rfl

/-! ### The pin -/

@[simp] theorem engineTurn_rstLow (s : State) : (engineTurn p s).rstLow = s.rstLow := by
  unfold engineTurn
  split
  · rfl
  · obtain ⟨-, e⟩ | ⟨-, -, e⟩ | ⟨-, -, e⟩ := completeRun_cases _ s <;> rw [e] <;> simp

@[simp] theorem invalidateCache_rstLow (r : Region) (s : State) : (invalidateCache p r s).rstLow = s.rstLow := by
  unfold invalidateCache; split <;> simp

theorem deliver_rstLow {w : Word} (delivered : deliver p w s = .next t) : t.rstLow = s.rstLow := by
  rcases deliver_reach delivered with rfl | ⟨_, _, _, _, rfl⟩
  · simp
  · rfl

/-- `rst_n` goes low by power-on reset alone, which leaves the reset values (R175). -/
theorem atReset_of_pin_falls (step : stepOn p s = .next t) (high : s.rstLow = false) (low : t.rstLow = true) :
    t.atReset := by
  have high : (arrived s).rstLow = false := by simpa using high
  have same : t.rstLow ≠ (arrived s).rstLow := by rw [high, low]; decide
  cases stepOn_move step with
  | engine after => simp [after] at same
  | command w delivered => simp [deliver_rstLow delivered] at same
  | store r v after => simp [after] at same
  | reset _ after => exact after ▸ powerOnReset_atReset p _
  | release after => simp [after] at low
  | memWrite a b _ after =>
    obtain ⟨-, -, -, -, pin, -⟩ := hostWrite_frame (p := p) a b (arrived s)
    exact absurd (after ▸ pin) same
  | invalidate r _ after => simp [after] at same
  | wait polls _ after =>
    obtain ⟨r, poll⟩ := waitPoll_cases (p := p) polls (arrived s)
    simp [after, poll] at same
  | quiet resp cycleHi draws dirty after => simp [after] at same

/-- The invariant is kept on every platform. -/
theorem State.Inv.after_step (inv : s.Inv p) (step : stepOn p s = .next t) : t.Inv p := by
  obtain ⟨memory, status, running, validated⟩ := inv.sound.after_step step
  refine ⟨memory, status, running, validated, fun low => ?_⟩
  cases pin : s.rstLow with
  | false => exact atReset_of_pin_falls step pin low
  | true =>
    rcases HeldInReset.step_cases ⟨inv.inReset pin, pin⟩ step with ⟨reset, -⟩ | ⟨reset, -⟩
    · exact reset
    · exact reset

/-- Settles O58: by the move of the step; `step` is the step relation of the machine's own platform. -/
theorem invariantKeptByEveryStep : Obligations.InvariantKeptByEveryStep :=
  ⟨fun _ _ inv step => inv.after_step step, fun _ _ _ inv step => inv.after_step step⟩

/-- Settles O59: nothing is listed in memory at reset, no flag is set, and no run is in progress. -/
theorem invariantHoldsAtReset : Obligations.InvariantHoldsAtReset :=
  ⟨fun _ => ⟨rfl, consistent_reset, nofun, nofun, nofun⟩, platform_wf⟩

end Sys2Proof.Machine
end

section
/-! The ENGINE's turn (30_encoding.md R89, R92, 20_memory.md R51, R69, 60_exceptions.md R160): the end of a run in the
registers and in CYCLE, the bytes it reaches, and what the result depends on. -/

namespace Sys2Proof.Machine

open Sys2Proof.Spec

variable {p : Platform} {s s' t : State} {j : Job}

theorem engineTurn_running (running : s.job = some j) : engineTurn p s = completeRun p j s := by
  simp only [engineTurn, running]

/-! ### The end of a run -/

theorem endRun_cycle_running (running : s.job = some j) : (endRun s).cycle = endCycle j.startCycle s.cycle := by
  rw [endRun_running running]

/-- Whichever way a run ends, CYCLE is its end cycle (10_state.md R43). -/
theorem completeRun_cycle (running : s.job = some j) :
    (completeRun p j s).cycle = endCycle j.startCycle s.cycle := by
  obtain ⟨-, e⟩ | ⟨-, -, e⟩ | ⟨-, -, e⟩ := completeRun_cases (p := p) j s
  · rw [e, raiseError, endRun_cycle_running (j := j) (by simp [running])]; simp
  · rw [e, complete, endRun_cycle_running (j := j) (by simp [running])]; simp
  · rw [e, complete, endRun_cycle_running (j := j) (by simp [running])]; simp

theorem endRun_regs_running (running : s.job = some j) :
    (endRun s).regs = { s.regs with opcyc := endCycle j.startCycle s.cycle - j.startCycle } := by
  rw [endRun_running running]

/-- Whichever way a run ends, STATUS and OPCYC are the registers that change (30_encoding.md R89, 60_exceptions.md
R156). -/
theorem completeRun_regs (running : s.job = some j) :
    (completeRun p j s).regs =
      { s.regs with
        status :=
          if regionsBacked p j = true then { s.regs.status with done := true }
          else { s.regs.status with err := true, errcode := .busError }
        opcyc := endCycle j.startCycle s.cycle - j.startCycle } := by
  obtain ⟨backed, e⟩ | ⟨backed, -, e⟩ | ⟨backed, -, e⟩ := completeRun_cases (p := p) j s
  · rw [e, raiseError, endRun_regs_running (j := j) (by simp [running])]; simp [backed]
  · rw [e, complete, endRun_regs_running (j := j) (by simp [running])]; simp [backed]
  · rw [e, complete, endRun_regs_running (j := j) (by simp [running])]; simp [backed]

/-- OPCYC is at least 1 after a run (10_state.md R43). -/
theorem completeRun_opcyc_ne_zero (running : s.job = some j) : (completeRun p j s).regs.opcyc ≠ 0#64 := by
  rw [completeRun_regs running]
  exact endCycle_sub_ne_zero _ _

/-! ### The bytes a run reaches -/

theorem not_holds_dest {a : Nat} (outside : ¬inJobDest j a) : holds j.dest a = false :=
  Bool.eq_false_iff.2 fun held => outside (holds_iff.1 held)

/-- Whichever way a run ends, the bytes outside its destination stand (20_memory.md R51). -/
theorem readByte_completeRun (wf : s.mem.wf = true) {a : Nat} (outside : ¬inJobDest j a) :
    readByte (completeRun p j s).mem a = readByte s.mem a := by
  have outside := not_holds_dest outside
  obtain ⟨-, e⟩ | ⟨-, -, e⟩ | ⟨backed, -, e⟩ := completeRun_cases (p := p) j s <;> rw [e]
  · rw [raiseError_mem, readByte_scribbleDest wf (.inl outside)]
  · rw [complete_mem, readByte_scribbleDest wf (.inl outside)]
  · rw [complete_mem, readByte_writeResult wf backed, if_neg (by rw [outside]; decide)]

/-- Settles O21: whichever of its three ways the completion step takes, it writes inside the destination. -/
theorem engineWritesOnlyTheDestination : Obligations.EngineWritesOnlyTheDestination := by
  intro p s j wf running a outside
  rw [engineTurn_running running, readByte_completeRun wf outside]

theorem regionsBacked_iff_inJob :
    regionsBacked p j = true ↔ ∀ a, inJobSource j a ∨ inJobDest j a → memOk p a = true := by
  simp only [regionsBacked_iff, holds_iff]
  rfl

/-- Settles O23: an unbacked byte in a region is the first case of the completion step, which looks at no race flag. -/
theorem unbackedRegionEndsInBusError : Obligations.UnbackedRegionEndsInBusError := by
  intro p s j b wf running done inside unbacked
  have notBacked : regionsBacked p j = false := by
    refine Bool.eq_false_iff.2 fun backed => ?_
    exact absurd (regionsBacked_iff_inJob.1 backed b inside) (by simp [unbacked])
  have regs := completeRun_regs (p := p) running
  have after : completeRun p j s = raiseError .busError (scribbleDest p j s) := by simp [completeRun, notBacked]
  rw [engineTurn_running running]
  refine ⟨by rw [after]; simp, ?_, completeRun_opcyc_ne_zero running, fun a untouched => ?_⟩
  · rw [regs]
    simp [notBacked, withEnd, done]
  · rw [after, raiseError_mem, readByte_scribbleDest wf (untouched.imp_left not_holds_dest)]

/-- Settles O24: with both regions backed the run ends in DONE, whatever the race flag does to its result. -/
theorem racedRunStillEndsInDone : Obligations.RacedRunStillEndsInDone := by
  intro p s j wf running _ err code backed
  have regs := completeRun_regs (p := p) running
  have idle : (engineTurn p s).busy = false := engineTurn_busy s
  rw [engineTurn_running running] at idle ⊢
  refine ⟨idle, ?_, completeRun_opcyc_ne_zero running, fun a outside => readByte_completeRun wf outside⟩
  rw [regs, if_pos (regionsBacked_iff_inJob.2 backed)]
  simp [withEnd, err, code]

/-! ### What the result depends on -/

/-- The nine neighbours of an interior pixel lie in its image. -/
theorem neighbour_in_image {w h x y : Nat} (inner : isInterior w h x y) (a b : Fin 3) :
    x + b.val - 1 < w ∧ y + a.val - 1 < h := by
  obtain ⟨-, right, -, bottom⟩ := inner
  omega

/-- The plane byte of a neighbour of an interior pixel is its source byte (42_lut_convolve.md R107). -/
theorem planarize_neighbour {m : Memory} {x y : Nat} (inner : isInterior j.width.toNat j.height.toNat x y) (c : Nat)
    (a b : Fin 3) :
    planarize j m c ((y + a.val - 1) * j.width.toNat + (x + b.val - 1)) =
      srcByte j m (x + b.val - 1) (y + a.val - 1) c :=
  planarize_pixel (neighbour_in_image inner a b).1

/-- The two memories hold the same source image. -/
def SameSource (j : Job) (m m' : Memory) : Prop := ∀ a, inJobSource j a → readByte m a = readByte m' a

theorem SameSource.srcByte_eq {m m' : Memory} (same : SameSource j m m') {x y c : Nat} (hx : x < j.width.toNat)
    (hy : y < j.height.toNat) (hc : c < 3) : srcByte j m x y c = srcByte j m' x y c := by
  have offset := pixel_offset_lt hx hy hc
  exact same _ ⟨by simp only [addr]; omega, by simp only [addr]; omega⟩

/-- A neighbour of an interior pixel reads the same from either memory. -/
theorem SameSource.neighbour_eq {m m' : Memory} (same : SameSource j m m') {x y c : Nat}
    (inner : isInterior j.width.toNat j.height.toNat x y) (hc : c < 3) (a b : Fin 3) :
    srcByte j m (x + b.val - 1) (y + a.val - 1) c = srcByte j m' (x + b.val - 1) (y + a.val - 1) c :=
  same.srcByte_eq (neighbour_in_image inner a b).1 (neighbour_in_image inner a b).2 hc

theorem SameSource.directByte_eq {m m' : Memory} (same : SameSource j m m') {x y c : Nat} (hc : c < 3) :
    directByte j m x y c = directByte j m' x y c := by
  unfold directByte
  split
  · rename_i inner
    simp only [directAcc, same.neighbour_eq (interior_iff.1 inner) hc]
  · rfl

theorem SameSource.lutPixel_eq {m m' : Memory} (same : SameSource j m m') {x y c : Nat}
    (inner : isInterior j.width.toNat j.height.toNat x y) (hc : c < 3) :
    lutPixel j (planarize j m) c x y = lutPixel j (planarize j m') c x y := by
  simp only [lutPixel, lutSum, planarize_neighbour inner, same.neighbour_eq inner hc]

/-- What OUT holds before the first pass does not depend on memory, and a pass depends on the source image alone. -/
theorem SameSource.lutByte_eq {m m' : Memory} (same : SameSource j m m') {x y c : Nat} (hx : x < j.width.toNat)
    (hc : c < 3) : lutByte j m x y c = lutByte j m' x y c := by
  unfold lutByte interleave
  cases j.iter.toNat with
  | zero => rfl
  | succ n =>
    simp only [lutPasses, lutPass_pixel _ _ hx]
    split
    · exact same.lutPixel_eq (interior_iff.1 ‹_›) hc
    · rfl

/-- The result image depends on the source image alone (R51, 41_direct_convolve.md R98). -/
theorem SameSource.resultAt_eq {m m' : Memory} (same : SameSource j m m') {o : Nat}
    (inside : o < imageSize j.width.toNat j.height.toNat) : resultAt j m o = resultAt j m' o := by
  obtain ⟨hx, hy, hc, -⟩ := pixel_of_offset inside
  unfold resultAt resultByte
  cases j.mode with
  | direct => exact same.directByte_eq hc
  | lut => exact same.lutByte_eq hx hc
  | copy => simp only [copyByte_eq_srcByte hx, same.srcByte_eq hx hy hc]

/-- An unraced run over backed ordinary memory writes its result image (R92). -/
theorem readByte_completeRun_dest (wf : s.mem.wf = true) (noRace : j.race = false)
    (duties : ∀ a, inJobSource j a ∨ inJobDest j a → memOk p a = true ∧ ordinary p a = true) {a : Nat}
    (inside : inJobDest j a) :
    readByte (completeRun p j s).mem a = resultAt j (sourceView j s) (a - j.dstBase.toNat) := by
  have backed : regionsBacked p j = true := regionsBacked_iff_inJob.2 fun a ha => (duties a ha).1
  have source : allIn j.source (ordinary p) = true := allIn_iff.2 fun a lo hi => (duties a (.inl ⟨lo, hi⟩)).2
  have dest : allIn j.dest (ordinary p) = true := allIn_iff.2 fun a lo hi => (duties a (.inr ⟨lo, hi⟩)).2
  have specified : resultUnspecified p j = false := by rw [resultUnspecified, noRace, source, dest]; rfl
  have after : completeRun p j s = complete (writeResult p j s) := by simp [completeRun, backed, specified]
  rw [after, complete_mem, readByte_writeResult wf backed, if_pos (holds_iff.2 inside)]
  rfl

/-- Settles O22: with every cache duty kept the ENGINE reads the source as memory holds it, and the result image depends
on that alone. -/
theorem resultDependsOnlyOnJobAndSource : Obligations.ResultDependsOnlyOnJobAndSource := by
  intro p s s' j wf wf' running running' _ noRace clean duties agree a inside
  have backed : regionsBacked p j = true := regionsBacked_iff_inJob.2 fun a ha => (duties a ha).1
  have noUnclean : ∀ a, a ∉ j.unclean := by simp [clean]
  have same : SameSource j (sourceView j s) (sourceView j s') := fun b source => by
    rw [readByte_sourceView_clean wf backed (noUnclean b), readByte_sourceView_clean wf' backed (noUnclean b),
      agree b source]
  rw [engineTurn_running running, engineTurn_running running', readByte_completeRun_dest wf noRace duties inside,
    readByte_completeRun_dest wf' noRace duties inside]
  exact same.resultAt_eq (by unfold imageSize; omega)

end Sys2Proof.Machine
end

section
/-! CYCLE and OPCYC over a step (10_state.md R40, R43). -/

namespace Sys2Proof.Machine

open Sys2Proof.Spec

variable {p : Platform} {s t : State} {j : Job}

/-! ### CYCLE -/

/-- With `rst_n` high time passes before a move, by a free amount (log 5). -/
theorem arrive_of_high (high : s.rstLow = false) (rest : List Event) :
    arrive rest s =
      { s with
        agenda := rest
        resp := .none
        cycle := s.cycle + Config.drawCycles s.draws
        draws := s.draws + 1 } := by
  simp [arrive, tick, high]

theorem endCycle_eq_or (start now : Count) : endCycle start now = now ∨ endCycle start now = now + 1 := by
  unfold endCycle
  split
  · exact .inr rfl
  · exact .inl rfl

/-- No word delivered to CMD takes time (30_encoding.md R85). -/
theorem deliver_cycle {w : Word} (delivered : deliver p w s = .next t) : t.cycle = s.cycle := by
  rcases deliver_reach delivered with rfl | ⟨_, _, _, _, rfl⟩
  · simp
  · rfl

/-- The ENGINE's turn takes no time, or the one cycle that a run takes at least (10_state.md R43). -/
theorem engineTurn_cycle (s : State) :
    (engineTurn p s).cycle = s.cycle ∨ s.busy = true ∧ (engineTurn p s).cycle = s.cycle + 1 := by
  cases running : s.job with
  | none => exact .inl (by rw [engineTurn_idle running])
  | some j =>
    rw [engineTurn_running running, completeRun_cycle running]
    exact (endCycle_eq_or j.startCycle s.cycle).imp_right fun e => ⟨busy_of_job running, e⟩

@[simp] theorem invalidateCache_cycle (r : Region) (s : State) : (invalidateCache p r s).cycle = s.cycle := by
  unfold invalidateCache; split <;> simp

/-- Settles O44: after the free cycles that pass before every move, only the end of a run adds a cycle. -/
theorem cycleOnlyCountsUp : Obligations.CycleOnlyCountsUp := by
  intro p s t high noAssert step
  have passed : (arrived s).cycle = s.cycle + Config.drawCycles s.draws := by rw [arrived, arrive_of_high high]
  rw [← passed]
  cases stepOn_move step with
  | engine after =>
    subst after
    rcases engineTurn_cycle (p := p) (arrived s) with same | ⟨busy, later⟩
    · exact .inl same
    · exact .inr ⟨by simpa using busy, engineTurn_busy _, later⟩
  | command w delivered => exact .inl (deliver_cycle delivered :)
  | store r v after => exact .inl (by simp [after])
  | reset next _ => exact absurd next noAssert
  | release after => exact .inl (by rw [after])
  | memWrite a b _ after =>
    obtain ⟨-, cycle, -⟩ := hostWrite_frame (p := p) a b (arrived s)
    exact .inl (after ▸ cycle)
  | invalidate r _ after => exact .inl (by rw [after, invalidateCache_cycle])
  | wait polls _ after =>
    obtain ⟨r, poll⟩ := waitPoll_cases (p := p) polls (arrived s)
    exact .inl (by rw [after, poll])
  | quiet resp cycleHi draws dirty after => exact .inl (by rw [after])

/-! ### OPCYC -/

/-- A word delivered to CMD leaves OPCYC, or resets the register block. -/
theorem deliver_opcyc {w : Word} (delivered : deliver p w s = .next t) :
    t.regs.opcyc = s.regs.opcyc ∨ t.regs = RegBlock.reset := by
  rcases deliver_reach delivered with rfl | ⟨_, _, _, _, rfl⟩
  · exact .inr rfl
  · exact .inl rfl

@[simp] theorem storeReg_opcyc (r : Reg) (v : Word) (s : State) : (storeReg r v s).regs.opcyc = s.regs.opcyc := by
  cases r <;> rfl

/-- The end of a run, as OPCYC and the flags tell it (10_state.md R43). -/
theorem completeRun_opcyc (running : s.job = some j) :
    ((completeRun p j s).regs.status.done = true ∨ (completeRun p j s).regs.status.err = true) ∧
      (completeRun p j s).regs.opcyc = (completeRun p j s).cycle - j.startCycle := by
  rw [completeRun_regs running, completeRun_cycle running]
  refine ⟨?_, rfl⟩
  split
  · exact .inl rfl
  · exact .inr rfl

/-- Settles O45: by the kind of the step; only the ENGINE's turn at the end of a run, and the resets, reach OPCYC. -/
theorem opcycChangesOnlyAtTheEndOfARun : Obligations.OpcycChangesOnlyAtTheEndOfARun := by
  intro p s t step
  cases stepOn_kind step with
  | quiet regs _ => exact .inl (by rw [regs])
  | engine _ after =>
    subst after
    cases running : s.job with
    | none => exact .inl (by rw [engineTurn_idle (by simpa using running), arrive_regs])
    | some j =>
      have running' : (arrived s).job = some j := by simpa using running
      obtain ⟨ended, opcyc⟩ := completeRun_opcyc (p := p) running'
      have idle : (completeRun p j (arrived s)).job = none := by
        rw [← engineTurn_running running', ← busy_eq_false, engineTurn_busy]
      have positive : (completeRun p j (arrived s)).regs.opcyc.toNat ≠ 0 := fun zero =>
        completeRun_opcyc_ne_zero (p := p) running' (BitVec.eq_of_toNat_eq zero)
      rw [engineTurn_running running']
      exact .inr (.inr ⟨j, rfl, idle, ended, opcyc, Nat.one_le_iff_ne_zero.2 positive⟩)
  | command w _ delivered =>
    rcases deliver_opcyc delivered with same | reset
    · exact .inl (by simpa using same)
    · exact .inr (.inl ⟨reset, by rw [reset]; rfl⟩)
  | store r v _ _ after => exact .inl (by simp [after])
  | reset _ after => exact .inr (.inl (by subst after; exact ⟨rfl, rfl⟩))

end Sys2Proof.Machine
end

section
/-! OVF and BUSY over a step (10_state.md R26, R29). -/

namespace Sys2Proof.Machine

open Sys2Proof.Spec

variable {p : Platform} {s t : State}

/-- A flag that keeps its value neither rises nor falls. -/
theorem neither_rises_nor_falls {before after : Bool} {rise fall : Prop} (same : after = before) :
    (before = false → after = true → rise) ∧ (before = true → after = false → fall) := by
  subst same
  exact ⟨fun low high => absurd (low.symm.trans high) (by decide),
    fun high low => absurd (low.symm.trans high) (by decide)⟩

/-! ### OVF -/

@[simp] theorem answer_busy (r : Response) (s : State) : (answer r s).busy = s.busy := rfl

@[simp] theorem storeReg_busy (r : Reg) (v : Word) (s : State) : (storeReg r v s).busy = s.busy :=
  congrArg Option.isSome (storeReg_job s r v)

@[simp] theorem dropCommand_busy (s : State) : (dropCommand s).busy = s.busy := rfl

/-- OVF rises at a dropped word, and falls at a reset of the register block. -/
theorem deliver_ovf {w : Word} (delivered : deliver p w s = .next t) :
    t.regs.status.ovf = s.regs.status.ovf ∨
      (s.busy = true ∧ w ≠ 0x00000005#32 ∧ t.regs.status.ovf = true) ∨ t.regs = RegBlock.reset := by
  rcases deliver_cases delivered with ⟨busy, other, rfl⟩ | ⟨-, rfl⟩ | ⟨-, done⟩
  · exact .inr (.inl ⟨busy, other, rfl⟩)
  · exact .inr (.inr rfl)
  left
  rcases done with ⟨-, rfl⟩ | ⟨code, -, -, rfl⟩ | ⟨id, e, -, -, rfl⟩ | ⟨mode, i, -, -, -, rfl⟩ <;> simp

@[simp] theorem engineTurn_ovf (s : State) : (engineTurn p s).regs.status.ovf = s.regs.status.ovf := by
  cases running : s.job with
  | none => rw [engineTurn_idle running]
  | some j =>
    rw [engineTurn_running running, completeRun_status]
    split <;> rfl

/-- OVF is cleared by a 1 at bit 3 of STATUS, and stored nowhere else (10_state.md R29, R31). -/
theorem storeReg_ovf (r : Reg) (v : Word) (s : State) :
    (storeReg r v s).regs.status.ovf = s.regs.status.ovf ∨
      (r = .status ∧ v[3] = true ∧ (storeReg r v s).regs.status.ovf = false) := by
  cases r
  case status =>
    cases clears : v[3]
    · exact .inl (by simp [storeReg, acknowledge_eq_clear, clears])
    · exact .inr ⟨rfl, rfl, by simp [storeReg, acknowledge_eq_clear, clears]⟩
  all_goals exact .inl rfl

/-- Settles O53: by the kind of the step; a step of any kind keeps OVF, or it is a dropped word, an acknowledgement of
OVF or a reset. -/
theorem overrunIsSticky : Obligations.OverrunIsSticky := by
  intro p s t step
  cases stepOn_kind step with
  | quiet regs _ => exact neither_rises_nor_falls (by rw [regs])
  | engine _ after => exact neither_rises_nor_falls (by simp [after])
  | command w next delivered =>
    rcases deliver_ovf delivered with same | ⟨busy, other, risen⟩ | reset
    · exact neither_rises_nor_falls (by simpa using same)
    · exact ⟨fun _ _ => ⟨by simpa using busy, w, other, next⟩,
        fun _ low => absurd (low.symm.trans risen) (by decide)⟩
    · exact ⟨fun _ high => absurd high (by rw [reset]; decide), fun _ _ => .inl reset⟩
  | store r v _ next after =>
    subst after
    rcases storeReg_ovf r v (answer .ack (arrive s.agenda.tail s)) with same | ⟨status, clears, fallen⟩
    · exact neither_rises_nor_falls (by simpa using same)
    · exact ⟨fun _ high => absurd (fallen.symm.trans high) (by decide), fun _ _ => .inr ⟨v, clears, status ▸ next⟩⟩
  | reset _ after =>
    subst after
    exact ⟨nofun, fun _ _ => .inl rfl⟩

/-! ### BUSY -/

/-- Settles O54: BUSY rises where a word is accepted as a run command, whose one encoding that word is; it falls where
the ENGINE has its turn or a reset aborts the run. -/
theorem busyRisesOnlyAtAcceptance : Obligations.BusyRisesOnlyAtAcceptance := by
  intro p s t step
  cases stepOn_kind step with
  | quiet _ busy => exact neither_rises_nor_falls busy
  | engine turn after =>
    subst after
    have idle : (engineTurn p (arrive s.agenda.tail s)).busy = false := engineTurn_busy _
    exact ⟨fun _ high => absurd (idle.symm.trans high) (by decide), fun _ _ => turn.imp_right .inl⟩
  | command w next delivered =>
    rcases deliver_cases delivered with ⟨-, -, rfl⟩ | ⟨softReset, rfl⟩ | ⟨idle, done⟩
    · exact neither_rises_nor_falls (by simp)
    · rw [decode_eq_softReset_iff.1 softReset] at next
      exact ⟨nofun, fun _ _ => .inr (.inr (.inr next))⟩
    have idle : s.busy = false := by simpa using idle
    rcases done with ⟨-, rfl⟩ | ⟨code, -, -, rfl⟩ | ⟨id, e, -, -, rfl⟩ | ⟨mode, i, run, word, -, rfl⟩
    · exact neither_rises_nor_falls (by rw [idle, busy_eq_false]; simp)
    · exact neither_rises_nor_falls (by rw [idle, busy_eq_false]; simp)
    · exact neither_rises_nor_falls (by rw [idle, busy_eq_false]; simp)
    · have instr : i = runInstr mode := by
        simp only [List.mem_cons, Prod.mk.injEq, List.not_mem_nil, or_false] at run
        rcases run with ⟨rfl, rfl⟩ | ⟨rfl, rfl⟩ | ⟨rfl, rfl⟩ <;> rfl
      have encoded : encode (runInstr mode) = w := instr ▸ (encodeOfDecodeIsTheWord w i word).1
      exact ⟨fun _ _ => ⟨w, mode, encoded, next⟩, fun high => absurd (idle.symm.trans high) (by decide)⟩
  | store r v _ _ after => exact neither_rises_nor_falls (by simp [after])
  | reset next after => exact ⟨by subst after; nofun, fun _ _ => .inr (.inr (.inl next))⟩

end Sys2Proof.Machine
end

section
/-! Memory over a step (20_memory.md R51, 43_control.md R146), the cases in which the machine stops (93 U25), and the
steps to the end of a run (30_encoding.md R93). -/

namespace Sys2Proof.Machine

open Sys2Proof.Spec

variable {p : Platform} {s t : State}

/-! ### Memory -/

/-- A word delivered to CMD reaches memory only where SOFT_RESET aborts a run (R146). -/
theorem deliver_mem {w : Word} (delivered : deliver p w s = .next t) :
    t.mem = s.mem ∨ s.busy = true ∧ t.busy = false := by
  rcases deliver_reach delivered with rfl | ⟨_, _, _, _, rfl⟩
  · cases busy : s.busy with
    | true => exact .inr ⟨rfl, rfl⟩
    | false => exact .inl (by rw [resetEngine_mem, abortRun_idle (busy_eq_false.1 busy)])
  · exact .inl rfl

/-- With COHERENT true an invalidate does nothing (log 8). -/
theorem invalidateCache_coherent (coherent : p.coherent = true) (r : Region) (s : State) :
    invalidateCache p r s = s := by
  rw [invalidateCache, if_pos coherent]

/-- Settles O55: by the move of the step; the ENGINE's turn and the resets find memory to change only in a run. -/
theorem onlyTheseMovesChangeMemory : Obligations.OnlyTheseMovesChangeMemory := by
  intro p s t step changed
  have changed : t.mem ≠ (arrived s).mem := by simpa using changed
  cases stepOn_move step with
  | engine after =>
    subst after
    cases busy : s.busy with
    | true => exact .inr (.inl ⟨rfl, engineTurn_busy _⟩)
    | false =>
      have idle : (arrived s).job = none := by simpa using busy
      exact absurd (by rw [engineTurn_idle idle]) changed
  | command w delivered =>
    rcases deliver_mem delivered with same | ⟨busy, idle⟩
    · exact absurd same changed
    · exact .inr (.inl ⟨by simpa using busy, idle⟩)
  | store r v after => exact absurd (by simp [after]) changed
  | reset _ after =>
    subst after
    cases busy : s.busy with
    | true => exact .inr (.inl ⟨rfl, rfl⟩)
    | false =>
      have idle : (arrived s).job = none := by simpa using busy
      exact absurd (by rw [powerOnReset_mem, abortRun_idle idle]) changed
  | release after => exact absurd (by rw [after]) changed
  | memWrite a b next _ => exact .inl ⟨a, b, next⟩
  | invalidate r next after =>
    cases coherent : p.coherent with
    | true => exact absurd (by rw [after, invalidateCache_coherent coherent]) changed
    | false => exact .inr (.inr ⟨rfl, r, next⟩)
  | wait polls _ after =>
    obtain ⟨r, poll⟩ := waitPoll_cases (p := p) polls (arrived s)
    exact absurd (by rw [after, poll]) changed
  | quiet resp cycleHi draws dirty after => exact absurd (by rw [after]) changed

/-! ### The two stops -/

theorem busAccess_total (bits : Nat) (a : Word) (op : RegOp) (s : State) :
    ∃ t, busAccess p bits a op s = .next t := by
  unfold busAccess
  split
  · exact regPort_total bits _ op s
  · exact ⟨_, rfl⟩

/-- Settles O56: every move but two is a function of the state, or a register access, which always answers. -/
theorem machineStopsOnlyOutsideTheModel : Obligations.MachineStopsOnlyOutsideTheModel := by
  intro p s
  cases agenda : s.agenda with
  | nil => exact .inl ⟨_, stepOn_nil agenda⟩
  | cons e rest =>
    rw [stepOn_cons agenda]
    cases e with
    | reg bits o op => exact .inl (regPort_total bits o op _)
    | bus bits a op => exact .inl (busAccess_total bits a op _)
    | remap => exact .inr (.inl ⟨rfl, rfl⟩)
    | clock hz =>
      by_cases same : hz = p.fClk
      · exact .inl ⟨_, if_pos same⟩
      · exact .inr (.inr ⟨⟨hz, same, rfl⟩, if_neg same⟩)
    | engine | memRead | memWrite | wait | cacheClean | cacheInvalidate | rstAssert | rstRelease =>
      exact .inl ⟨_, rfl⟩

/-! ### The end of a run -/

/-- At most so many steps to the ENGINE's turn, counted with it: a `wait` polls, then gives the ENGINE its turn, and so
does an agenda with no move left (log 1, 14). -/
def stepsToTurn : List Event → Nat
  | [] => 1
  | .engine :: _ => 1
  | .wait polls :: _ => polls + 2
  | _ :: rest => stepsToTurn rest + 1

@[simp] theorem stepsToTurn_wait (polls : Nat) (rest : List Event) :
    stepsToTurn (.wait polls :: rest) = polls + 2 := rfl

theorem stepsToTurn_pos (moves : List Event) : 1 ≤ stepsToTurn moves := by
  unfold stepsToTurn
  split <;> omega

/-- A move that is neither the ENGINE's turn nor a `wait` is one step on the way to the turn. -/
theorem stepsToTurn_cons {e : Event} (rest : List Event) (noTurn : e ≠ .engine) (noWait : ∀ n, e ≠ .wait n) :
    stepsToTurn (e :: rest) = stepsToTurn rest + 1 := by
  cases e with
  | engine => exact absurd rfl noTurn
  | wait n => exact absurd rfl (noWait n)
  | _ => rfl

theorem agendaWeight_cons (e : Event) (rest : List Event) :
    agendaWeight (e :: rest) = agendaWeight [e] + agendaWeight rest := by simp [agendaWeight]

theorem agendaWeight_wait (polls : Nat) : agendaWeight [.wait polls] = polls + 2 := rfl

theorem agendaWeight_singleton_pos (e : Event) : 1 ≤ agendaWeight [e] := by
  cases e with
  | wait polls => rw [agendaWeight_wait]; omega
  | _ => exact Nat.le_refl 1

theorem stepsToTurn_le_agendaWeight (moves : List Event) : stepsToTurn moves ≤ agendaWeight moves + 1 := by
  induction moves with
  | nil => exact Nat.le_refl 1
  | cons e rest ih =>
    rw [agendaWeight_cons]
    have pos := agendaWeight_singleton_pos e
    by_cases turn : e = .engine
    · subst turn
      exact Nat.le_add_left 1 _
    by_cases wait : ∃ n, e = .wait n
    · obtain ⟨n, rfl⟩ := wait
      rw [stepsToTurn_wait, agendaWeight_wait]
      omega
    · rw [stepsToTurn_cons rest turn fun n h => wait ⟨n, h⟩]
      omega

/-- A word delivered to CMD puts no move on the agenda. -/
theorem deliver_agenda {w : Word} (delivered : deliver p w s = .next t) : t.agenda = s.agenda := by
  rcases deliver_reach delivered with rfl | ⟨_, _, _, _, rfl⟩
  · simp
  · rfl

@[simp] theorem invalidateCache_agenda (r : Region) (s : State) : (invalidateCache p r s).agenda = s.agenda := by
  unfold invalidateCache; split <;> simp

@[simp] theorem engineTurn_agenda (s : State) : (engineTurn p s).agenda = s.agenda := by
  unfold engineTurn
  split
  · rfl
  · obtain ⟨-, e⟩ | ⟨-, -, e⟩ | ⟨-, -, e⟩ := completeRun_cases _ s <;> rw [e] <;> simp

/-- A step takes its move off the agenda; only a poll of `wait` puts moves back. -/
theorem step_agenda (step : stepOn p s = .next t) :
    t.agenda = s.agenda.tail ∨ ∃ polls, s.agenda.head? = some (.wait polls) ∧ t = waitPoll p polls (arrived s) := by
  cases stepOn_move step with
  | engine after => exact .inl (by simp [after])
  | command w delivered => exact .inl (by simp [deliver_agenda delivered])
  | store r v after => exact .inl (by simp [after])
  | reset _ after => exact .inl (by simp [after])
  | release after => exact .inl (by simp [after])
  | memWrite a b _ after =>
    obtain ⟨-, -, -, -, -, agenda, -⟩ := hostWrite_frame (p := p) a b (arrived s)
    exact .inl (by rw [after, agenda, arrived, arrive_agenda])
  | invalidate r _ after => exact .inl (by simp [after])
  | wait polls next after => exact .inr ⟨polls, next, after⟩
  | quiet resp cycleHi draws dirty after => exact .inl (by simp [after])

/-- A busy poll of `wait` puts the ENGINE's turn next, or itself with a poll less (log 14). -/
theorem stepsToTurn_waitPoll (busy : s.busy = true) (polls : Nat) :
    stepsToTurn (waitPoll p polls s).agenda < polls + 2 := by
  obtain ⟨r, poll⟩ := waitPoll_cases (p := p) polls s
  rw [poll, busy]
  cases polls with
  | zero => exact Nat.one_lt_two
  | succ n => exact Nat.lt_succ_self (n + 2)

/-- A busy step ends or aborts the run, or brings the ENGINE's turn nearer. -/
theorem stepsToTurn_lt (busy : s.busy = true) (step : stepOn p s = .next t) :
    t.busy = false ∨ stepsToTurn t.agenda < stepsToTurn s.agenda := by
  cases agenda : s.agenda with
  | nil =>
    rw [stepOn_nil agenda] at step
    exact .inl (Host.Outcome.next.inj step ▸ engineTurn_busy _)
  | cons e rest =>
    rw [stepOn_cons agenda] at step
    by_cases turn : e = .engine
    · subst turn
      exact .inl (Host.Outcome.next.inj step ▸ engineTurn_busy _)
    right
    by_cases wait : ∃ n, e = .wait n
    · obtain ⟨n, rfl⟩ := wait
      exact Host.Outcome.next.inj step ▸ stepsToTurn_waitPoll ((arrive_busy rest s).trans busy) n
    · have tail : t.agenda = rest := by
        rcases step_agenda ((stepOn_cons agenda).trans step) with tail | ⟨n, next, -⟩
        · rw [tail, agenda, List.tail_cons]
        · rw [agenda, List.head?_cons, Option.some.injEq] at next
          exact absurd ⟨n, next⟩ wait
      rw [tail, stepsToTurn_cons rest turn fun n h => wait ⟨n, h⟩]
      exact Nat.lt_succ_self _

theorem runOn_succ_of_fault {f : Fault} (first : stepOn p s = .fault f) (n : Nat) : runOn p (n + 1) s = .fault f := by
  simp only [runOn, Host.Core.run, first]

/-- A run ends, or the machine stops, within the steps to the ENGINE's turn. -/
theorem run_ends_within (p : Platform) (bound : Nat) (s : State) (busy : s.busy = true)
    (near : stepsToTurn s.agenda ≤ bound) :
    ∃ n, n ≤ bound ∧ ((∃ t, runOn p n s = .next t ∧ t.busy = false) ∨ ∃ f, runOn p n s = .fault f) := by
  induction bound generalizing s with
  | zero => exact absurd (stepsToTurn_pos s.agenda) (by omega)
  | succ bound ih =>
    rcases machineStopsOnlyOutsideTheModel p s with ⟨t, step⟩ | ⟨-, fault⟩ | ⟨-, fault⟩
    · cases stillBusy : t.busy with
      | false => exact ⟨1, by omega, .inl ⟨t, runOn_succ_of_step step 0, stillBusy⟩⟩
      | true =>
        have nearer := (stepsToTurn_lt busy step).resolve_left (by simp [stillBusy])
        obtain ⟨n, le, ends⟩ := ih t stillBusy (by omega)
        exact ⟨n + 1, by omega, by rwa [runOn_succ_of_step step n]⟩
    · exact ⟨1, by omega, .inr ⟨_, runOn_succ_of_fault fault 0⟩⟩
    · exact ⟨1, by omega, .inr ⟨_, runOn_succ_of_fault fault 0⟩⟩

/-- Settles O57: the moves of an agenda take no fewer steps than it takes to the ENGINE's turn, but for the turn
itself. -/
theorem everyRunEnds : Obligations.EveryRunEnds := fun p s busy =>
  run_ends_within p (agendaWeight s.agenda + 1) s busy (stepsToTurn_le_agendaWeight s.agenda)

end Sys2Proof.Machine
end

section
/-! The CMD write (00_scope.md R6, 30_encoding.md R85 to R91): the step that delivers a word, and what the word's
command does with an idle engine. -/

namespace Sys2Proof.Machine

open Sys2Proof.Spec

variable {p : Platform} {s t : State} {mode : RunMode} {w : Word}

/-! ### The step that delivers a word -/

/-- Settles O8: the two cases of the agenda. -/
theorem stepPerformsTheNextMove : Obligations.StepPerformsTheNextMove :=
  fun _ _ => ⟨stepOn_nil, fun _ _ => stepOn_cons⟩

/-- A CMD write as a step, at the port or by bus address (10_state.md R17, R25). -/
theorem stepOn_delivers {m : Event} {rest : List Event} (high : s.rstLow = false) (agenda : s.agenda = m :: rest)
    (write : m = cmdWrite w ∨ ∃ a, m = .bus 32 a (.write w) ∧ blockOffset p a = some 0x0C#8) :
    stepOn p s =
      deliver p w
        { s with
          agenda := rest
          resp := .ack
          cycle := s.cycle + Config.drawCycles s.draws
          draws := s.draws + 1 } := by
  have delivered : stepOn p s = deliver p w (answer .ack (arrive rest s)) := by
    rcases write with rfl | ⟨a, rfl, offset⟩
    · exact stepOn_cmdWrite high agenda
    · rw [stepOn_cons agenda, perform, busAccess, offset]
      exact regPort_register .cmd (.write w) (by simpa using high)
  rw [delivered, arrive_of_high high]
  rfl

/-- Settles O60: the step relation at the machine's own platform, and the CMD write on every platform. -/
theorem configurationIsAParameter : Obligations.ConfigurationIsAParameter := by
  refine ⟨rfl, exec_eq_execOn, fun p s w m rest high agenda write => ?_⟩
  have step := stepOn_delivers high agenda write
  exact ⟨step, fun i word => step.trans (deliver_of_ok word _)⟩

/-- Settles O6: the CMD write on the machine's own platform. -/
theorem stepRunsTheDecodedCommand : Obligations.StepRunsTheDecodedCommand := by
  intro s w m rest high agenda write
  have step : step s = _ := stepOn_delivers high agenda write
  exact ⟨step, fun i word => step.trans ((deliver_of_ok word _).trans (exec_eq_execOn i _).symm)⟩

/-- The word a row of the table names, by the decoder (R78). -/
theorem decode_of_decodeTableWord {nbits n : Nat} {i : Instr} (h : decodeTableWord nbits n = some i) :
    decode (BitVec.ofNat 32 (n % 2 ^ nbits)) = .ok i := by
  unfold decodeTableWord at h
  split at h
  · rename_i word
    rw [word, Option.some.inj h]
  · cases h

/-- Settles O7: the placed word is the next CMD write, and `rst_n` is high. -/
theorem fetchWordIsTheNextCommand : Obligations.FetchWordIsTheNextCommand := by
  intro s nbits w i word
  have step : step (s.withFetchWord nbits w) = _ := stepOn_delivers rfl rfl (.inl rfl)
  refine ⟨step.trans ?_, rfl⟩
  rw [deliver_of_ok (decode_of_decodeTableWord word), ← exec_eq_execOn]
  rfl

/-! ### Accepted runs -/

/-- The model's mark of a run accepted now: the source bytes that are not visible to the ENGINE (20_memory.md R72). -/
theorem mem_uncleanSource_iff {a : Nat} : a ∈ uncleanSource p s ↔ inSource s a ∧ ¬visible p s a := by
  rw [mem_uncleanSource, not_or, not_not, Bool.not_eq_true, and_comm (a := inSource s a), and_assoc]
  rfl

/-- A run command whose registers pass its checks is accepted on every platform, and so by `exec` on the machine's own:
`passed` is what is left of the checks beside the geometry. -/
theorem run_is_accepted (mode : RunMode) {passed : Platform → State → Prop}
    (valid : ∀ p s, Geometry s → passed p s → (snapshot p mode s).valid p) :
    (∀ s : State, s.busy = false → Geometry s → passed Config.platform s →
        ∃ u, exec (runInstr mode) s = .next (accepted s mode u)) ∧
      ∀ (p : Platform) (s : State), s.busy = false → Geometry s → passed p s →
        ∃ u, (∀ a, a ∈ u ↔ inSource s a ∧ ¬visible p s a) ∧ execOn p (runInstr mode) s = .next (accepted s mode u) :=
  ⟨fun s idle geometry h => ⟨_, (exec_eq_execOn _ s).trans (execOn_run_accepted idle (valid _ s geometry h))⟩,
    fun p s idle geometry h => ⟨_, fun _ => mem_uncleanSource_iff, execOn_run_accepted idle (valid p s geometry h)⟩⟩

/-- Settles O11: beside the geometry RUN_DIRECT checks DIV. -/
theorem runDirectIsAccepted : Obligations.RunDirectIsAccepted :=
  run_is_accepted .direct (passed := fun _ s => 0 < s.regs.div.toNat) fun _ _ geometry div =>
    snapshot_valid geometry (fun _ => div) nofun nofun

/-- Settles O12: beside the geometry RUN_LUT checks DIV, ITER and the capacity of the planes. -/
theorem runLutIsAccepted : Obligations.RunLutIsAccepted := by
  obtain ⟨own, every⟩ := run_is_accepted .lut
    (passed := fun p s => 0 < s.regs.div.toNat ∧ 0 < s.regs.iter.toNat ∧ W s * H s ≤ p.maxPixels.toNat)
    fun _ _ geometry ⟨div, iter, capacity⟩ => snapshot_valid geometry (fun _ => div) (fun _ => iter) fun _ => capacity
  exact ⟨fun s idle geometry div iter capacity => own s idle geometry ⟨div, iter, capacity⟩,
    fun p s idle geometry div iter capacity => every p s idle geometry ⟨div, iter, capacity⟩⟩

/-- Settles O13: beside the geometry RUN_COPY checks the capacity of the planes. -/
theorem runCopyIsAccepted : Obligations.RunCopyIsAccepted :=
  run_is_accepted .copy (passed := fun p s => W s * H s ≤ p.maxPixels.toNat) fun _ _ geometry capacity =>
    snapshot_valid geometry nofun nofun fun _ => capacity

/-! ### Errors -/

/-- Settles O16: of the outcomes of a CMD write with an idle engine, only a raised error leaves ERR set. -/
theorem validationErrorsChangeOnlyStatus : Obligations.ValidationErrorsChangeOnlyStatus := by
  intro p s t w idle delivered err
  rcases deliver_cases delivered with ⟨busy, -⟩ | ⟨-, rfl⟩ | ⟨-, done⟩
  · exact absurd (idle.symm.trans busy) (by decide)
  · exact absurd err Bool.false_ne_true
  rcases done with ⟨-, rfl⟩ | ⟨code, notNone, notBusError, rfl⟩ | ⟨id, e, -, -, rfl⟩ | ⟨mode, i, -, -, -, rfl⟩
  · simp at err
  · exact ⟨code, notNone, notBusError, raiseError_acceptCommand idle code⟩
  · simp at err
  · simp at err

end Sys2Proof.Machine
end

section
/-! The arithmetic of the filters (40_filter_table.md R96, 41_direct_convolve.md R103, R104, 42_lut_convolve.md R113,
R118): bounds of the sums, rounding, and the results on particular kernels and images. -/

namespace Sys2Proof.Machine

open Sys2Proof.Spec

variable {j : Job} {m : Memory} {v : Byte} {x y c : Nat}

/-! ### Bounds -/

theorem abs_weight_le (kernel : Kernel) (k : Fin 9) : |weight kernel k| ≤ 128 := by
  have lo := BitVec.le_toInt (kernel[k])
  have hi := BitVec.toInt_le (x := kernel[k])
  rw [weight, abs_le]
  omega

/-- A byte times a weight. -/
theorem abs_byte_mul_le (v : Byte) {a b : Int} (h : |a| ≤ b) : |(v.toNat : Int) * a| ≤ 255 * b := by
  have byte : |(v.toNat : Int)| ≤ 255 := by
    rw [Nat.abs_cast]
    omega
  rw [abs_mul]
  exact mul_le_mul byte h (abs_nonneg a) (by decide)

theorem abs_sum3_le {f : Fin 3 → Int} {b : Int} (h : ∀ i, |f i| ≤ b) : |sum3 f| ≤ 3 * b := by
  have h0 := abs_le.1 (h 0)
  have h1 := abs_le.1 (h 1)
  have h2 := abs_le.1 (h 2)
  rw [sum3, abs_le]
  omega

/-- Truncation toward zero does not enlarge a number, whatever the divisor. -/
theorem abs_tdiv_le (a : Int) (d : Nat) : |tdiv a d| ≤ |a| := by
  rw [tdiv_eq_int_tdiv, Int.abs_eq_natAbs, Int.abs_eq_natAbs, Int.natAbs_tdiv]
  exact Int.ofNat_le.2 (Nat.div_le_self _ _)

theorem abs_product_le (j : Job) (k : Fin 9) (v : Byte) :
    |(v.toNat : Int) * weight j.kernel k * 2 ^ lutScale| ≤ 8355840 := by
  rw [abs_mul, show |(2 : Int) ^ lutScale| = 256 from rfl]
  have product := abs_byte_mul_le v (abs_weight_le j.kernel k)
  omega

theorem abs_lutEntry_le (j : Job) (k : Fin 9) (v : Byte) : |lutEntry j k v| ≤ 8355840 :=
  (abs_tdiv_le _ _).trans (abs_product_le j k v)

theorem abs_directAcc_le (j : Job) (m : Memory) (x y c : Nat) : |directAcc j m x y c| ≤ 293760 := by
  refine abs_sum3_le (b := 97920) fun a => abs_sum3_le (b := 32640) fun b => ?_
  rw [mul_comm]
  exact abs_byte_mul_le _ (abs_weight_le j.kernel _)

theorem abs_lutSum_le (j : Job) (planes : Planes) (c x y : Nat) : |lutSum j planes c x y| ≤ 75202560 :=
  abs_sum3_le (b := 25067520) fun _ => abs_sum3_le fun _ => abs_lutEntry_le j _ _

/-- Settles O27: a byte times a weight is at most 255 * 128 in magnitude, and nine terms at most nine times as much. -/
theorem noAccumulationOverflows : Obligations.NoAccumulationOverflows := fun j m planes x y c k v =>
  ⟨abs_directAcc_le j m x y c, abs_product_le j k v, abs_lutEntry_le j k v, abs_lutSum_le j planes c x y⟩

/-- Settles O28: a pass reads nothing of OUT, so the last pass is the only one seen. -/
theorem passCountDoesNotMatter : Obligations.PassCountDoesNotMatter :=
  fun j planes _ many => lutPasses_eq_one j planes many

/-! ### Rounding -/

theorem clamp255_of_nonpos {a : Int} (nonpos : a ≤ 0) : clamp255 a = 0#8 := by
  rcases nonpos.lt_or_eq with neg | rfl
  · exact clamp255_of_neg neg
  · rfl

theorem tdiv_nonpos {a : Int} (nonpos : a ≤ 0) (d : Nat) : tdiv a d ≤ 0 := by
  have sign : a.sign ≤ 0 := Int.sign_nonpos_iff.2 nonpos
  exact Int.mul_nonpos_of_nonpos_of_nonneg sign (Int.natCast_nonneg _)

/-- From 0 on truncating and flooring are the same. -/
theorem tdiv_eq_floor {a : Int} (nonneg : 0 ≤ a) (d : Nat) : tdiv a d = a / d := by
  rw [tdiv_eq_int_tdiv, Int.tdiv_eq_ediv_of_nonneg nonneg]

@[simp] theorem tdiv_one (a : Int) : tdiv a 1 = a := by rw [tdiv_eq_int_tdiv, Nat.cast_one, Int.tdiv_one]

@[simp] theorem tdiv_zero_left (d : Nat) : tdiv 0 d = 0 := by rw [tdiv_eq_int_tdiv, Int.zero_tdiv]

/-- Settles O29: truncating and flooring differ for a negative sum alone, where both quotients clamp to 0. -/
theorem directRoundingIsNotObservable : Obligations.DirectRoundingIsNotObservable := by
  intro acc d pos
  have pos : (0 : Int) < d := Int.natCast_pos.2 pos
  have negative : acc < 0 → clamp255 (tdiv acc d) = 0#8 := fun neg => clamp255_of_nonpos (tdiv_nonpos neg.le d)
  refine ⟨?_, negative, fun large => ?_, by rw [tdiv_one]⟩
  · rcases lt_or_ge acc 0 with neg | nonneg
    · rw [negative neg, clamp255_of_neg (Int.ediv_neg_of_neg_of_pos neg pos)]
    · rw [tdiv_eq_floor nonneg]
  · have quotient : 256 ≤ acc / d := (Int.le_ediv_iff_mul_le pos).2 large
    rw [tdiv_eq_floor (by omega), clamp255_of_gt (by omega)]

/-! ### The sums over a kernel -/

theorem mul_sum3 (a : Int) (f : Fin 3 → Int) : sum3 (fun i => a * f i) = a * sum3 f := by
  simp only [sum3, mul_add]

/-- The sum of a kernel's weights, row by row. -/
theorem sum_weights (kernel : Kernel) :
    (kernel.toList.map fun w => w.toInt).sum = nineTerms fun a b => kernelWeight kernel a b := by
  have size : kernel.toList.length = 9 := kernel.length_toList
  simp only [nineTerms, kernelWeight]
  generalize kernel.toList = weights at size
  match weights, size with
  | [_, _, _, _, _, _, _, _, _], _ => simp [add_assoc]

/-- The LUT's sum over the source bytes (42_lut_convolve.md R107, R110). -/
theorem lutSum_eq_srcByte (inner : isInterior j.width.toNat j.height.toNat x y) :
    lutSum j (planarize j m) c x y =
      sum3 fun a => sum3 fun b => lutEntry j (kpos a b) (srcByte j m (x + b.val - 1) (y + a.val - 1) c) := by
  simp only [lutSum, planarize_neighbour inner]

/-- The byte of RUN_LUT at an interior pixel, whatever ITER is (R113). -/
theorem lutByte_interior (iter : 0 < j.iter.toNat) (inner : isInterior j.width.toNat j.height.toNat x y) :
    lutByte j m x y c = lutPixel j (planarize j m) c x y := by
  have hx : x < j.width.toNat := by omega
  rw [lutByte, interleave, lutPasses_eq_one _ _ iter, lutPasses, lutPass_pixel _ _ hx, if_pos (interior_iff.2 inner)]

theorem directByte_interior (inner : isInterior j.width.toNat j.height.toNat x y) :
    directByte j m x y c = clamp255 (tdiv (directAcc j m x y c) j.div.toNat) := if_pos (interior_iff.2 inner)

/-- With D = 1 a table entry is its product, scaled (R108). -/
theorem lutEntry_div_one (one : j.div = 1#16) (k : Fin 9) (v : Byte) :
    lutEntry j k v = 256 * (weight j.kernel k * v.toNat) := by
  rw [lutEntry, one, show (1#16).toNat = 1 from rfl, tdiv_one, show (2 : Int) ^ lutScale = 256 from rfl]
  ring

/-- With D = 1 the LUT's sum is the direct sum, scaled (R118). -/
theorem lutSum_div_one (one : j.div = 1#16) (inner : isInterior j.width.toNat j.height.toNat x y) :
    lutSum j (planarize j m) c x y = 256 * directAcc j m x y c := by
  simp only [lutSum_eq_srcByte inner, lutEntry_div_one one, mul_sum3, directAcc]

/-- With D = 1 the LUT's byte is the low byte of the magnitude of the direct sum (R118 item 3). -/
theorem lutPixel_div_one (one : j.div = 1#16) (inner : isInterior j.width.toNat j.height.toNat x y) :
    lutPixel j (planarize j m) c x y = lo8 ((directAcc j m x y c).natAbs : Int) := by
  rw [lutPixel, lutSum_div_one one inner, asr_lutScale, Int.mul_ediv_cancel_left _ (by decide)]

/-- A byte is its own low byte. -/
@[simp] theorem lo8_byte (v : Byte) : lo8 (v.toNat : Int) = v := by
  apply BitVec.eq_of_toNat_eq
  have value := lo8_toNat (v.toNat : Int)
  omega

theorem clamp255_byte (v : Byte) : clamp255 (v.toNat : Int) = v := by
  rw [clamp255_of_byte (by omega) (by omega), lo8_byte]

/-- The kernel of R118 item 4, which weights the pixel itself by 1. -/
theorem directAcc_identity (identity : j.kernel = #v[0, 0, 0, 0, 1, 0, 0, 0, 0]) :
    directAcc j m x y c = (srcByte j m x y c).toNat := by
  have centre : directSum #v[0, 0, 0, 0, 1, 0, 0, 0, 0]
      (fun x' y' => seenPixel (readByte m) j.srcBase.toNat j.width.toNat x' y' c) x y =
        ((srcByte j m (x + 1 - 1) (y + 1 - 1) c).toNat : Int) := by
    simp [directSum, nineTerms, kernelWeight]
    rfl
  rw [directAcc_eq_directSum, identity, centre, Nat.add_sub_cancel, Nat.add_sub_cancel]

/-- Settles O32: with D = 1 the LUT's sum is the direct sum scaled by 256, which the shift undoes. -/
theorem lutWithDivisorOne : Obligations.LutWithDivisorOne := by
  intro j m x y c one inner
  rw [lutPixel_div_one one inner]
  refine ⟨rfl, fun ⟨nonneg, small⟩ => ?_, fun identity => ?_⟩
  · rw [directByte_interior inner, one, show (1#16).toNat = 1 from rfl, tdiv_one, clamp255_of_byte nonneg small,
      Int.natAbs_of_nonneg nonneg]
  · rw [directAcc_identity identity, Int.natAbs_natCast, lo8_byte]

/-! ### Uniform images -/

/-- The channel of the source image holds one byte everywhere. -/
def Uniform (j : Job) (m : Memory) (c : Nat) (v : Byte) : Prop :=
  ∀ x' y', x' < j.width.toNat → y' < j.height.toNat → srcByte j m x' y' c = v

theorem Uniform.neighbour (uniform : Uniform j m c v) (inner : isInterior j.width.toNat j.height.toNat x y)
    (a b : Fin 3) : srcByte j m (x + b.val - 1) (y + a.val - 1) c = v :=
  uniform _ _ (neighbour_in_image inner a b).1 (neighbour_in_image inner a b).2

theorem Uniform.directAcc_eq (uniform : Uniform j m c v) (inner : isInterior j.width.toNat j.height.toNat x y) :
    directAcc j m x y c = v.toNat * (j.kernel.toList.map fun w => w.toInt).sum := by
  simp only [directAcc, uniform.neighbour inner, weight_kpos, mul_comm _ (v.toNat : Int), mul_sum3]
  rw [sum_weights, sum3_sum3_eq_nineTerms (kernelWeight j.kernel)]

theorem Uniform.lutSum_eq (uniform : Uniform j m c v) (inner : isInterior j.width.toNat j.height.toNat x y) :
    lutSum j (planarize j m) c x y =
      nineTerms fun a b => ((v.toNat : Int) * kernelWeight j.kernel a b * 256).tdiv j.div.toNat := by
  simp only [lutSum_eq_srcByte inner, uniform.neighbour inner, lutEntry_eq_tdiv]
  exact sum3_sum3_eq_nineTerms fun a b => ((v.toNat : Int) * kernelWeight j.kernel a b * 256).tdiv j.div.toNat

/-- Settles O30: every neighbour holds the byte, so the sum is the byte times the sum of the weights. -/
theorem uniformImages : Obligations.UniformImages := by
  intro j m v x y c uniform pos inner total
  have acc : directAcc j m x y c = v.toNat * total := Uniform.directAcc_eq uniform inner
  refine ⟨acc, fun divisor => ?_, fun zero => ?_, fun zero one iter => ?_⟩
  · rw [directByte_interior inner, acc, divisor, tdiv_eq_int_tdiv, Int.mul_tdiv_cancel _ (by omega), clamp255_byte]
  · rw [directByte_interior inner, acc, zero, mul_zero, tdiv_zero_left]
    rfl
  · rw [lutByte_interior iter inner, lutPixel_div_one one inner, acc, zero, mul_zero]
    rfl

/-- The entries of gauss for a byte: four of weight 4, one of weight 8 and four of weight 0, each divided by 24. -/
theorem nine_gauss_entries (v : Byte) :
    (nineTerms fun a b => ((v.toNat : Int) * kernelWeight gauss.kernel a b * 256).tdiv (24 : Nat)) =
      4 * ((v.toNat : Int) * 4 * 256 / 24) + (v.toNat : Int) * 8 * 256 / 24 := by
  have quotient : ∀ k : Nat, ((v.toNat : Int) * k * 256).tdiv (24 : Nat) = (v.toNat : Int) * k * 256 / 24 := fun k =>
    Int.tdiv_eq_ediv_of_nonneg (by positivity)
  have four := quotient 4
  have eight := quotient 8
  simp [nineTerms, kernelWeight, gauss] at four eight ⊢
  omega

/-- The division by 24 of each entry loses less than one in the sum of the nine, and nothing where 3 divides the
byte. -/
theorem gauss_quotient (n : Nat) :
    (4 * ((n : Int) * 4 * 256 / 24) + (n : Int) * 8 * 256 / 24) / 256 =
      ((if n % 3 = 0 then n else n - 1 : Nat) : Int) := by
  have residue : n = 3 * (n / 3) ∨ n = 3 * (n / 3) + 1 ∨ n = 3 * (n / 3) + 2 := by omega
  generalize n / 3 = q at residue
  rcases residue with rfl | rfl | rfl
  · rw [if_pos (by omega)]; omega
  · rw [if_neg (by omega)]; omega
  · rw [if_neg (by omega)]; omega

/-- Settles O31: the byte is the sum of the nine entries of gauss, shifted. -/
theorem gaussLutOnAUniformImage : Obligations.GaussLutOnAUniformImage := by
  intro j m v x y c kernel div iter uniform inner
  have sum : lutSum j (planarize j m) c x y =
      4 * ((v.toNat : Int) * 4 * 256 / 24) + (v.toNat : Int) * 8 * 256 / 24 := by
    rw [Uniform.lutSum_eq uniform inner, kernel, div]
    exact nine_gauss_entries v
  have byte := lo8_toNat ((asr (lutSum j (planarize j m) c x y) lutScale).natAbs : Int)
  rw [← lutPixel, ← lutByte_interior iter inner, asr_lutScale, sum, gauss_quotient, Int.natAbs_natCast] at byte
  have small : v.toNat < 256 := v.isLt
  split_ifs at byte ⊢ <;> omega

end Sys2Proof.Machine
end

section
/-! The register block (10_state.md R18 to R39, 60_exceptions.md R165, 70_reset_and_hazards.md R176, R179, R183):
unnamed offsets, what a register reads as after a write, the layout of STATUS, and the acknowledgement of the line. -/

namespace Sys2Proof.Machine

open Sys2Proof.Spec

variable {p : Platform} {s t : State} {r r' : Reg} {v : Word}

/-! ### Unnamed offsets and read-only registers -/

/-- The map names no offset in 0x54..0x5C, nor from 0x70 on (R19). -/
theorem offset_named (r : Reg) : ¬(0x54 ≤ r.offset.toNat ∧ r.offset.toNat ≤ 0x5C ∨ 0x70 ≤ r.offset.toNat) := by
  cases r with
  | k n => revert n; decide
  | _ => decide

theorem regAt_unnamed {o : BitVec 8} (unnamed : 0x54 ≤ o.toNat ∧ o.toNat ≤ 0x5C ∨ 0x70 ≤ o.toNat) :
    regAt o = none := by
  refine Option.eq_none_iff_forall_ne_some.2 fun r named => ?_
  exact offset_named r (regAt_eq_some named ▸ unnamed)

theorem regPort_unnamed {o : BitVec 8} (aligned : o.toNat % 4 = 0)
    (unnamed : 0x54 ≤ o.toNat ∧ o.toNat ≤ 0x5C ∨ 0x70 ≤ o.toNat) (op : RegOp) :
    regPort p 32 o op s = .next (razWi op s) := by
  have legal : legalAccess 32 o = true := legalAccess_iff.2 ⟨rfl, aligned⟩
  simp [regPort, legal, accessReg, regAt_unnamed unnamed]

/-- A write of a register other than CMD, by the pin: in reset it stores nothing (log 9). -/
theorem regPort_write (other : r ≠ .cmd) (v : Word) (s : State) :
    regPort p 32 r.offset (.write v) s =
      .next (if s.rstLow = true then answer .ack s else storeReg r v (answer .ack s)) := by
  simp only [regPort, legalAccess_offset, accessReg, regAt_offset, writeReg_store other]
  cases s.rstLow <;> rfl

/-- Settles O34: the port answers an unnamed offset itself, and a read-only register stores nothing, in reset or out of
it. -/
theorem unnamedOffsetsReadZeroAndIgnoreWrites : Obligations.UnnamedOffsetsReadZeroAndIgnoreWrites := by
  refine ⟨fun p s o aligned unnamed => ⟨regPort_unnamed aligned unnamed .read, fun v =>
    regPort_unnamed aligned unnamed (.write v)⟩, fun p s v r readOnly => ?_⟩
  have other : r ≠ .cmd := by rintro rfl; simp at readOnly
  have ignored : storeReg r v (answer .ack s) = answer .ack s := by
    simp only [List.mem_cons, List.not_mem_nil, or_false] at readOnly
    rcases readOnly with rfl | rfl | rfl | rfl | rfl | rfl | rfl <;> rfl
  rw [regPort_write other, ignored, ite_self]
  rfl

/-! ### Reading back -/

theorem irqEnOf_word (v : Word) : (irqEnOf v).word = v &&& 0x7#32 := by
  refine BitVec.eq_of_getLsbD_eq fun i hi => ?_
  simp only [IrqEn.word, irqEnOf, BitVec.getLsbD_append, BitVec.getLsbD_and]
  interval_cases i <;> simp

theorem setWidth_half (v : Word) : (v.setWidth 16).setWidth 32 = v &&& 0xFFFF#32 := by
  ext i hi
  simp only [BitVec.getElem_setWidth, BitVec.getElem_and]
  interval_cases i <;> simp

theorem weightWord_setWidth (v : Word) :
    weightWord (v.setWidth 8) = if v[7] then v ||| 0xFFFFFF00#32 else v &&& 0xFF#32 := by
  refine BitVec.eq_of_getLsbD_eq fun i hi => ?_
  have sign : (v.setWidth 8).msb = v[7] := by simp [BitVec.msb_eq_getLsbD_last]
  rw [weightWord, BitVec.getLsbD_signExtend, sign]
  cases v[7] <;> interval_cases i <;> simp

/-- A configuration register reads back what was stored (R32 to R39). -/
theorem regValue_storeReg_same (config : isConfig r = true) (v : Word) (s : State) :
    regValue p r (storeReg r v s) = readBack r v := by
  cases r with
  | irqEn => exact irqEnOf_word v
  | width | height | iter | div => exact setWidth_half v
  | srcBase | dstBase => rfl
  | k n =>
    rw [readBack, ← weightWord_setWidth]
    simp [regValue, storeReg]
  | _ => cases config

/-- A stored configuration register is one field of the register block, which no other register shows. -/
theorem regValue_storeReg_other (config : isConfig r = true) (other : r' ≠ r) (v : Word) (s : State) :
    regValue p r' (storeReg r v s) = regValue p r' s := by
  cases r with
  | k n =>
    cases r' with
    | k m =>
      have apart : n.val ≠ m.val := fun same => other (congrArg Reg.k (Fin.ext same.symm))
      exact congrArg weightWord (Vector.getElem_set_ne n.isLt m.isLt apart)
    | _ => rfl
  | irqEn | width | height | iter | srcBase | dstBase | div =>
    cases r' <;> first | rfl | exact absurd rfl other
  | _ => cases config

/-- Settles O36: the field that a configuration register stores is the one it shows, and no other shows it. -/
theorem registersReadBack : Obligations.RegistersReadBack := fun _ s _ v config =>
  ⟨regValue_storeReg_same config v s, fun _ other => regValue_storeReg_other config other v s⟩

theorem isConfig_ne_cmd (config : isConfig r = true) : r ≠ .cmd := by rintro rfl; cases config

/-- A configuration register keeps STATUS and is no reading of it. -/
theorem storeReg_status_of_config (config : isConfig r = true) (v : Word) (s : State) :
    (storeReg r v s).regs.status = s.regs.status := by
  cases r with
  | irqEn | width | height | iter | srcBase | dstBase | div | k => rfl
  | _ => cases config

@[simp] theorem regValue_answer (a : Response) (s : State) : regValue p r (answer a s) = regValue p r s := by
  cases r <;> rfl

/-- Settles O37: with `rst_n` high the write stores the register, after an acknowledge that no register shows. -/
theorem configurationWriteCompletes : Obligations.ConfigurationWriteCompletes := by
  intro p s r v high config
  refine ⟨storeReg r v (answer .ack s), ?_, by simp, regValue_storeReg_same config v _, fun r' other => ?_,
    storeReg_status_of_config config v _, by simp, by simp, by simp, by simp, by simp⟩
  · rw [regPort_write (isConfig_ne_cmd config), high, if_neg (by decide)]
  · rw [regValue_storeReg_other config other, regValue_answer]

/-! ### A running job -/

/-- What a configuration register reads as does not depend on STATUS or OPCYC. -/
theorem regValue_config_congr (config : isConfig r = true)
    (same : ∃ status opcyc, t.regs = { s.regs with status := status, opcyc := opcyc }) :
    regValue p r t = regValue p r s := by
  obtain ⟨status, opcyc, same⟩ := same
  cases r with
  | irqEn | width | height | iter | srcBase | dstBase | div | k => simp only [regValue, same]
  | _ => cases config

/-- What a run leaves in memory depends on memory and the free values to come alone, for one job. -/
theorem completeRun_mem_congr (j : Job) (memory : t.mem = s.mem) (draws : t.draws = s.draws) :
    (completeRun p j t).mem = (completeRun p j s).mem := by
  have scribbled : (scribbleDest p j t).mem = (scribbleDest p j s).mem := by
    rw [scribbleDest_mem, scribbleDest_mem, memory, draws]
  have seen : sourceView j t = sourceView j s := by simp only [sourceView, scribble_mem, memory, draws]
  have written : (writeResult p j t).mem = (writeResult p j s).mem := by
    rw [writeResult_mem, writeResult_mem, memory, seen]
  unfold completeRun
  split
  · rw [raiseError_mem, raiseError_mem, scribbled]
  · split
    · rw [complete_mem, complete_mem, scribbled]
    · rw [complete_mem, complete_mem, written]

/-- Settles O25: the completion step works from the job, so a stored register changes neither what it writes nor how it
ends, and it changes no configuration register. -/
theorem configurationWritesDoNotReachARunningJob : Obligations.ConfigurationWritesDoNotReachARunningJob := by
  intro p s r v busy config
  obtain ⟨j, running⟩ := Option.isSome_iff_exists.1 busy
  have running' : (storeReg r v s).job = some j := by simpa using running
  have status := storeReg_status_of_config config v s
  have regs := completeRun_regs (p := p) running
  have regs' := completeRun_regs (p := p) running'
  rw [engineTurn_running running, engineTurn_running running']
  refine ⟨?_, completeRun_mem_congr j (by simp) (by simp), ?_, ?_⟩
  · rw [regValue_config_congr config ⟨_, _, regs'⟩, regValue_storeReg_same config]
  · rw [regs, regs', status]
  · rw [regs, regs', storeReg_cycle]

/-! ### STATUS, the line and the reset values -/

/-- Settles O39: each field of the word by its bits. -/
theorem statusLayout : Obligations.StatusLayout := by
  intro s
  simp only [← BitVec.getLsbD_eq_getElem]
  refine ⟨?_, ?_, ?_, ?_, ?_, ?_, ?_⟩
  iterate 4
    · simp only [statusWord, BitVec.getLsbD_append]
      simp
  · ext i hi
    simp only [statusWord, BitVec.getElem_extractLsb', BitVec.getLsbD_append]
    interval_cases i <;> simp
  · ext i hi
    simp only [statusWord, BitVec.getElem_extractLsb', BitVec.getLsbD_append]
    interval_cases i <;> simp
  · have code : (statusWord s).extractLsb' 8 4 = s.regs.status.errcode.code := by
      ext i hi
      simp only [statusWord, BitVec.getElem_extractLsb', BitVec.getLsbD_append]
      interval_cases i <;> simp
    rw [code]
    cases s.regs.status.errcode <;> rfl

/-- A flag that is 1 after an acknowledgement was 1 and had a 0 written to it (R31). -/
theorem kept_flag {flag clears : Bool} (set : (if clears = true then false else flag) = true) :
    clears = false ∧ flag = true := by simpa using set

/-- Settles O41: a flag drives the line only while it is enabled; the acknowledgement clears each such flag, and
acceptance clears all but OVF. -/
theorem acknowledgeDeassertsTheLine : Obligations.AcknowledgeDeassertsTheLine := by
  intro s v
  refine ⟨fun done err ovf => ?_, fun noOverrun => ?_⟩
  · rw [acknowledge_eq_clear, Bool.eq_false_iff, Ne, irq_eq_true_iff]
    rintro (⟨set, enabled⟩ | ⟨set, enabled⟩ | ⟨set, enabled⟩)
    · obtain ⟨kept, set⟩ := kept_flag set
      exact absurd (done set enabled) (by simp [kept])
    · obtain ⟨kept, set⟩ := kept_flag set
      exact absurd (err set enabled) (by simp [kept])
    · obtain ⟨kept, set⟩ := kept_flag set
      exact absurd (ovf set enabled) (by simp [kept])
  · rw [Bool.eq_false_iff, Ne, irq_eq_true_iff]
    rintro (⟨set, -⟩ | ⟨set, -⟩ | overrun)
    · cases set
    · cases set
    · exact noOverrun overrun

/-- Settles O43: CYCLE_LO is the one register with a side effect of reading it. -/
theorem readsHaveNoSideEffectButCycleLo : Obligations.ReadsHaveNoSideEffectButCycleLo := by
  intro p s r
  rw [regPort_read]
  split
  · subst r
    rfl
  · rw [readReg_of_ne_cycleLo ‹_›]
    rfl

/-- Settles O50: each register of the reset state, evaluated. -/
theorem resetValues : Obligations.ResetValues := by
  intro p
  refine ⟨rfl, rfl, rfl, rfl, rfl, rfl, rfl, rfl, rfl, rfl, rfl, rfl, ?_, rfl, rfl, rfl, rfl, rfl, rfl, rfl,
    rfl, rfl⟩
  have weights : ∀ n : Fin 9, weightWord RegBlock.reset.kernel[n] = 0#32 := by decide
  exact weights

end Sys2Proof.Machine
end

section
/-! HOST accesses of system memory, and the HOST's cache duties (20_memory.md R68, R72, 00_scope.md R11). -/

namespace Sys2Proof.Machine

open Sys2Proof.Spec

variable {p : Platform} {s : State} {a : Word} {b : Byte} {r : Region}

/-! ### Reads and writes -/

theorem hostRead_unbacked (unbacked : memOk p a.toNat = false) (s : State) :
    hostRead p a s = answer .busError s := by
  simp [hostRead, unbacked]

/-- A read of backed memory whose value a rule gives (R68). -/
theorem hostRead_specified (backed : memOk p a.toNat = true) (specified : readUnspecified p s a.toNat = false) :
    hostRead p a s = answer (.byte (readByte s.mem a.toNat)) s := by
  simp [hostRead, backed, specified]

theorem hostWrite_unbacked (unbacked : memOk p a.toNat = false) (b : Byte) (s : State) :
    hostWrite p a b s = answer .busError (noteRace a.toNat s) := by
  simp [hostWrite, unbacked]

theorem hostWrite_mem_backed (backed : memOk p a.toNat = true) (b : Byte) (s : State) :
    (hostWrite p a b s).mem = writeByte s.mem a.toNat b := by
  simp [hostWrite, backed]

/-- Settles O47: an unbacked address is the first case of either access. -/
theorem unbackedHostAccess : Obligations.UnbackedHostAccess := by
  intro p s a b unbacked
  rw [hostWrite_unbacked unbacked]
  exact ⟨hostRead_unbacked unbacked s, noteRace_mem s _, rfl⟩

/-- The byte a HOST reads is specified outside a running destination, in ordinary memory, with no stale copy (R62, R68,
R72). -/
theorem readUnspecified_eq_false {n : Nat} (ordinary : ordinary p n = true) (fresh : p.coherent = true ∨ n ∉ s.stale)
    (outside : ∀ j, s.job = some j → ¬inJobDest j n) : readUnspecified p s n = false := by
  have notRunning : inRunningDest s n = false := by
    unfold inRunningDest
    split
    · rfl
    · exact not_holds_dest (outside _ ‹_›)
  have notStale : (!p.coherent && s.stale.contains n) = false := by
    rcases fresh with coherent | fresh
    · simp [coherent]
    · simp [fresh]
  rw [readUnspecified, notRunning, notStale, ordinary]
  rfl

/-- The job after a HOST write: the race flag is set where the byte lies in a region of the run, and nothing else of the
job changes (10_state.md R45). -/
theorem hostWrite_job_running {j : Job} (running : s.job = some j) (a : Word) (b : Byte) :
    (hostWrite p a b s).job = some { j with race := j.race || holds j.source a.toNat || holds j.dest a.toNat } := by
  obtain ⟨-, -, -, job, -⟩ := hostWrite_frame (p := p) a b s
  rw [job, noteRace_job, running, Option.map_some]

/-- Settles O46: a read of a specified byte answers what memory holds; a write is one write of memory, and of the run's
job it reaches the race flag alone. -/
theorem hostMemoryAccess : Obligations.HostMemoryAccess := by
  intro p s a b wf backed
  obtain ⟨regs, -⟩ := hostWrite_frame (p := p) a b s
  refine ⟨fun ordinary fresh outside => ?_, fun x => ?_, regs, hostWrite_busy a b s, fun j running => ?_⟩
  · exact hostRead_specified backed (readUnspecified_eq_false ordinary fresh outside)
  · rw [hostWrite_mem_backed backed, readByte_writeByte wf]
  · refine ⟨_, hostWrite_job_running running a b, ?_, rfl⟩
    rw [Bool.or_eq_true, Bool.or_eq_true, holds_iff, holds_iff, or_assoc]
    rfl

/-! ### The cache duties -/

/-- A clean leaves no dirty byte in its range (R72). -/
theorem not_mem_dirty_cleanCache {n : Nat} (inside : r.base ≤ n ∧ n < r.base + r.size) (s : State) :
    n ∉ (cleanCache r s).dirty := by
  simp [holds_iff.2 inside]

/-- A clean that covers the source region keeps the HOST's duty for the next run (R72). -/
theorem uncleanSource_cleanCache (covers : ∀ n, inSource s n → r.base ≤ n ∧ n < r.base + r.size) :
    uncleanSource p (cleanCache r s) = [] := by
  refine List.eq_nil_iff_forall_not_mem.2 fun n unclean => ?_
  obtain ⟨source, hidden⟩ := mem_uncleanSource_iff.1 unclean
  exact hidden (.inr (not_mem_dirty_cleanCache (covers n source) s))

/-- An invalidate leaves no stale copy in its range (R72). -/
theorem not_mem_stale_invalidateCache (incoherent : p.coherent = false) {n : Nat}
    (inside : r.base ≤ n ∧ n < r.base + r.size) (s : State) : n ∉ (invalidateCache p r s).stale := by
  simp [invalidateCache, incoherent, holds_iff.2 inside]

/-- An invalidate throws away no byte but one the HOST left dirty (log 8). -/
theorem readByte_invalidateCache (wf : s.mem.wf = true) {n : Nat} (clean : n ∉ s.dirty) :
    readByte (invalidateCache p r s).mem n = readByte s.mem n := by
  cases coherent : p.coherent with
  | true => rw [invalidateCache_coherent coherent]
  | false =>
    have mem : (invalidateCache p r s).mem = (scribble r (fun a => memOk p a && s.dirty.contains a) s).mem := by
      simp [invalidateCache, coherent]
    have backed : ∀ i < r.size, (memOk p (r.base + i) && s.dirty.contains (r.base + i)) = true → r.base + i < 2 ^ 32 :=
      fun i _ chosen => memOk_lt (Bool.and_eq_true_iff.1 chosen).1
    rw [mem, scribble_mem, readByte_fill wf backed, if_neg (by simp [clean])]

/-- Settles O48: a clean empties `dirty` in its range, an invalidate `stale`, and neither reaches a clean byte. -/
theorem cacheDutiesRestoreVisibility : Obligations.CacheDutiesRestoreVisibility := by
  refine ⟨fun p s _ r covers => uncleanSource_cleanCache covers,
    fun p s r a idle backed ordinary incoherent lo hi => ?_, fun p s r n wf clean => readByte_invalidateCache wf clean⟩
  have noJob : ∀ j, (invalidateCache p r s).job ≠ some j := by simp [busy_eq_false.1 idle]
  have specified : readUnspecified p (invalidateCache p r s) a.toNat = false :=
    readUnspecified_eq_false ordinary (.inr (not_mem_stale_invalidateCache incoherent ⟨lo, hi⟩ s))
      fun j running => absurd running (noJob j)
  rw [hostRead_specified backed specified, answer_resp]

end Sys2Proof.Machine
end

section
/-! `setk` (30_encoding.md R82): writes of weights, one after the other. -/

namespace Sys2Proof.Machine

open Sys2Proof.Spec

variable {p : Platform} {s t : State}

/-- `wr REG, v` as a step (30_encoding.md R81), of a register other than CMD. -/
theorem stepOn_busWrite (wf : p.wf = true) (high : s.rstLow = false) {r : Reg} (other : r ≠ .cmd) {v : Word}
    {rest : List Event} (next : s.agenda = busWrite p r v :: rest) :
    stepOn p s = .next (storeReg r v (answer .ack (arrive rest s))) :=
  calc stepOn p s
    _ = perform p (busWrite p r v) (arrive rest s) := stepOn_cons next
    _ = regPort p 32 r.offset (.write v) (arrive rest s) := busAccess_regBase wf ..
    _ = .next (storeReg r v (answer .ack (arrive rest s))) := by
      rw [regPort_write other, arrive_rstLow, high, if_neg (by decide)]

/-- The kernel after the weights at these positions were written, in this order. -/
def storeWeights (weights : Vector Int 9) (positions : List (Fin 9)) (kernel : Kernel) : Kernel :=
  positions.foldl (fun (k : Kernel) (n : Fin 9) => k.set n (BitVec.ofInt 8 weights[n])) kernel

/-- Of a weight written as a word, the register keeps the low 8 bits of its two's complement (10_state.md R39). -/
theorem setWidth_ofInt (i : Int) : (BitVec.ofInt 32 i).setWidth 8 = BitVec.ofInt 8 i := by
  apply BitVec.eq_of_toNat_eq
  rw [BitVec.toNat_setWidth, BitVec.toNat_ofInt, BitVec.toNat_ofInt]
  omega

/-- Writes of weights, one step each. -/
theorem runOn_weight_writes (wf : p.wf = true) (weights : Vector Int 9) (positions : List (Fin 9)) (s : State)
    (high : s.rstLow = false) {rest : List Event}
    (agenda : s.agenda = positions.map (fun n => busWrite p (.k n) (BitVec.ofInt 32 weights[n])) ++ rest) :
    ∃ t, runOn p positions.length s = .next t ∧ t.agenda = rest ∧
      t.regs = { s.regs with kernel := storeWeights weights positions s.regs.kernel } ∧
      t.job = s.job ∧ t.mem = s.mem ∧ t.cycleHi = s.cycleHi := by
  induction positions generalizing s with
  | nil => exact ⟨s, rfl, agenda, rfl, rfl, rfl, rfl⟩
  | cons n positions ih =>
    let u := storeReg (.k n) (BitVec.ofInt 32 weights[n])
      (answer .ack (arrive (positions.map (fun n => busWrite p (.k n) (BitVec.ofInt 32 weights[n])) ++ rest) s))
    have step : stepOn p s = .next u := stepOn_busWrite wf high (r := .k n) (by simp) agenda
    have stored : u.regs = { s.regs with kernel := s.regs.kernel.set n (BitVec.ofInt 8 weights[n]) } := by
      simp [u, storeReg, setWidth_ofInt]
    obtain ⟨t, run, moves, regs, job, mem, shadow⟩ := ih u (by simpa [u] using high) (by simp [u])
    refine ⟨t, (runOn_succ_of_step step _).trans run, moves, ?_, by simpa [u] using job, by simpa [u] using mem,
      by simpa [u] using shadow⟩
    rw [regs, stored]
    rfl

/-- A position holds the new weight once it is written, and else the old one. -/
theorem getElem_storeWeights (weights : Vector Int 9) (positions : List (Fin 9)) (kernel : Kernel) (i : Fin 9) :
    (storeWeights weights positions kernel)[i] =
      if i ∈ positions then BitVec.ofInt 8 weights[i] else kernel[i] := by
  induction positions generalizing kernel with
  | nil => rfl
  | cons n positions ih =>
    rw [storeWeights, List.foldl_cons, ← storeWeights, ih]
    by_cases written : i ∈ positions
    · simp [written]
    · by_cases same : i = n
      · subst same
        simp [written]
      · have apart : n.val ≠ i.val := fun h => same (Fin.ext h.symm)
        rw [if_neg written, if_neg (by simp [written, same])]
        exact Vector.getElem_set_ne n.isLt i.isLt apart

/-- The nine positions leave no old weight. -/
theorem storeWeights_finRange (weights : Vector Int 9) (kernel : Kernel) :
    storeWeights weights (List.finRange 9) kernel = weights.map fun w => BitVec.ofInt 8 w := by
  refine Vector.ext fun i hi => ?_
  have position := getElem_storeWeights weights (List.finRange 9) kernel ⟨i, hi⟩
  rw [if_pos (List.mem_finRange _)] at position
  rw [Vector.getElem_map]
  exact position

/-- Settles O49: nine writes of weights, at the nine positions in order. -/
theorem setkLoadsTheKernel : Obligations.SetkLoadsTheKernel := by
  intro p s weights rest wf high agenda
  obtain ⟨t, run, moves, regs, frame⟩ := runOn_weight_writes wf weights (List.finRange 9) s high agenda
  exact ⟨t, run, moves, by rw [regs, storeWeights_finRange], frame⟩

end Sys2Proof.Machine
end
